-- ==== Sys2Proof/Word.lean ====
section
/-! DEFINITION. The word types of SC8: bytes, register indices and flag bits. -/

namespace Sys2Proof

/-- A byte: every register, memory cell, operand and immediate (R20, R60). -/
abbrev Byte := BitVec 8

/-- A register index, the three bits an operand byte selects with (R83). -/
abbrev RegIndex := BitVec 3

/-- The flags register's three bits: bit 0 Equal, bit 1 Greater, bit 2 Less (R33). -/
abbrev FlagBits := BitVec 3

end Sys2Proof
end

