-- ==== Sys2Proof/Config.lean ====
section
/-! DEFINITION. The parameters of SC8 (R5) and its free values. -/

namespace Sys2Proof

/-- The parameter `P_IRET` (R5): what IRET does, nothing or its intended contract. -/
inductive PIret where
  /-- IRET does nothing (R203); the default. -/
  | noop
  /-- IRET restores the context interrupt entry saved (R204). -/
  | intended
deriving DecidableEq, Repr

/-- `MEM_SIZE` (R5): the number of memory cells. -/
def Config.memSize : Nat := 256

/-- `SP_RESET` (R5, R29). -/
def Config.spReset : Byte := 0xF4#8

/-- `PC_RESET` (R5, R32). -/
def Config.pcReset : Nat := 0

/-- The default program load address, `startAddress: u8 = 0` (R50, R68). -/
def Config.loadAddress : Byte := 0x00#8

/-- `VECTOR_ADDR` (R5, R240): the address of the interrupt vector's one byte. -/
def Config.vectorAddr : Byte := 0xF8#8

/-- What a memory cell that nothing has written reads as (R62). -/
def Config.unwritten : Byte := 0x00#8

/-- One less than the parameter `ONE_SECOND`, a free value: the spec fixes no number (R5, D11).
DESIGN CHOICE, log entry 8. -/
opaque Config.oneSecondPred : Nat

/-- The parameter `ONE_SECOND` (R5): clock units in one second, a positive integer. -/
def Config.oneSecond : Nat := Config.oneSecondPred + 1

/-- By how much the clock input has advanced at its `n`-th reading, a free value: the spec lets the
clock be any sequence that never decreases (R53). DESIGN CHOICE, log entry 3. -/
opaque Config.clockAdvance : Nat → Nat

end Sys2Proof
end

