-- ==== Sys2Proof/Machine/State.lean ====
section
/-! DEFINITION. The machine's state as plain data (R20 to R46), its faults, and reset (R45, R270). -/

namespace Sys2Proof.Machine

/-- Memory: the cells that differ from an unwritten one, by strictly rising address (R60, R62). -/
abbrev Memory := List Host.Cell

/-- The fault kinds (R220). -/
inductive FaultKind where
  /-- The byte fetched as an opcode has no dispatch entry (R223). -/
  | illegalOpcode
  /-- A memory address, PC or SP outside [0, 255] (R224). -/
  | outOfBoundsAccess
  /-- DIV with a zero divisor (R225). -/
  | divisionByZero
  /-- A register index outside [0, 7]; no instruction raises it (R226). -/
  | invalidRegister
deriving DecidableEq, Repr

/-- The status of the core (R43). -/
inductive Status where
  /-- The core executes steps. -/
  | running
  /-- HLT ended the run (R111). -/
  | halted
  /-- A fault ended the run (R221). -/
  | faulted (k : FaultKind)
deriving DecidableEq, Repr

/-- The kind of an output event (R52). -/
inductive EmitKind where
  /-- PRN's events (R113). -/
  | decimal
  /-- PRA's events (R114). -/
  | char
deriving DecidableEq, Repr

/-- An output event: its kind and its byte (R44, R52). -/
structure OutputEvent where
  /-- Decimal or Char. -/
  kind : EmitKind
  /-- The byte the event carries. -/
  value : Byte
deriving DecidableEq, Repr

/-- The state of SC8 (R45), with the parameter P_IRET and the clock input beside it. -/
structure State where
  /-- The 256 memory cells (R60). -/
  mem : Memory
  /-- R0 to R7 (R20); R5 is IM, R6 is IS, R7 is SP (R26). -/
  regs : Vector Byte 8
  /-- The program counter, an integer in [0, 256] (R30). -/
  pc : Nat
  /-- The flags register (R33). -/
  fl : FlagBits
  /-- The interrupt-enable latch IEN (R41). -/
  ien : Bool
  /-- The last-interrupt time LT, a value of the clock input (R42). -/
  lt : Int
  /-- Running, Halted or Faulted(k) (R43). -/
  status : Status
  /-- The output trace, oldest event first (R44). -/
  output : List OutputEvent
  /-- The parameter P_IRET, which no step writes (R5). DESIGN CHOICE, log entry 7. -/
  pIret : PIret
  /-- The last value read of the clock input (R53). DESIGN CHOICE, log entry 3. -/
  clock : Int
  /-- How often the clock input was read: the index of the next free clock advance.
  DESIGN CHOICE, log entry 3. -/
  clockReads : Nat
deriving DecidableEq, Repr

/-- The machine as constructed and started with the parameter `p` and the clock at `now`, with
nothing loaded (R45, R51, R270). -/
def State.initial (p : PIret) (now : Int) : State where
  mem := []
  regs := #v[0x00#8, 0x00#8, 0x00#8, 0x00#8, 0x00#8, 0x00#8, 0x00#8, Config.spReset]
  pc := Config.pcReset
  fl := 0b000#3
  ien := true
  lt := now
  status := .running
  output := []
  pIret := p
  clock := now
  clockReads := 0

/-- The machine right after reset: P_IRET at the spec's default (R5), the clock's origin at the
reset (DESIGN CHOICE, log entry 5). -/
def State.reset : State := State.initial .noop 0

/-- Why a step gives no next state: the core takes no step once its status has left Running (R94).
A fault the spec describes is no such stop; it is a next state with status Faulted(k) (R222). -/
inductive Fault where
  /-- Raised by `step` alone, on a core whose status is Halted. Safe: the hardware takes no step
  either (R43, R94). -/
  | halted
  /-- Raised by `step` alone, on a core whose status is Faulted(k). Safe: the hardware takes no step
  either (R43, R94). -/
  | faulted (k : FaultKind)
deriving DecidableEq, Repr

/-- Why an instruction has no meaning in the model. -/
inductive Refusal where
  /-- Raised by an arm of `exec` whose instruction is not modelled; every instruction of SC8 is, so
  nothing raises it. Safe. -/
  | notModelled (mnemonic : String)
deriving DecidableEq, Repr

end Sys2Proof.Machine
end

