-- ==== Sys2Proof/Machine/Flags.lean ====
section
/-! DEFINITION. The flags register FL: its bits (R33), the comparison that writes it (R143), and its
byte in memory (R33, R204). -/

namespace Sys2Proof.Machine

/-- FL.E, bit 0: the last comparison found equality (R33). -/
def State.flagE (s : State) : Bool := s.fl.getLsbD 0

/-- FL.G, bit 1: the last comparison found greater-than (R33). -/
def State.flagG (s : State) : Bool := s.fl.getLsbD 1

/-- FL.L, bit 2: the last comparison found less-than (R33). -/
def State.flagL (s : State) : Bool := s.fl.getLsbD 2

/-- The flags an unsigned comparison of `a` with `b` gives (R143). -/
def compareFlags (a b : Byte) : FlagBits :=
  if a = b then 0b001#3 else if b < a then 0b010#3 else 0b100#3

/-- FL overwritten (R34). -/
def State.setFl (s : State) (v : FlagBits) : State := { s with fl := v }

/-- FL as the byte interrupt entry pushes: zero-extended (R33). -/
def flagsByte (v : FlagBits) : Byte := v.setWidth 8

/-- FL from a popped byte: its bits [2:0] (R204). -/
def flagsOfByte (b : Byte) : FlagBits := b.extractLsb' 0 3

end Sys2Proof.Machine
end

