-- ==== Sys2Proof/Machine/Memory.lean ====
section
/-! DEFINITION. Memory as a canonical list of cells: reading, writing, and the form itself. -/

namespace Sys2Proof.Machine

/-- The byte at an address; an address not listed reads as an unwritten cell (R62). -/
def Memory.read : Memory → Nat → Byte
  | [], _ => Config.unwritten
  | c :: m, a => if c.1 = a then c.2 else Memory.read m a

/-- A list of cells without those at an address. -/
def Memory.eraseAt : Memory → Nat → Memory
  | [], _ => []
  | c :: m, a => if c.1 = a then Memory.eraseAt m a else c :: Memory.eraseAt m a

/-- A list of cells with a new cell in its place by address. -/
def Memory.insertCell : Memory → Host.Cell → Memory
  | [], d => [d]
  | c :: m, d => if d.1 < c.1 then d :: c :: m else c :: Memory.insertCell m d

/-- Memory with the byte `v` at `a`, every other cell as it was (R63, R67). Writing what an unlisted
address reads as lists nothing. -/
def Memory.write (m : Memory) (a : Nat) (v : Byte) : Memory :=
  if v = Config.unwritten then Memory.eraseAt m a else Memory.insertCell (Memory.eraseAt m a) (a, v)

/-- Every cell of a list lies above an address. -/
def Memory.above (a : Nat) : Memory → Bool
  | [] => true
  | c :: _ => decide (a < c.1)

/-- The canonical form: addresses strictly rising and inside [0, 255] (R60), and no cell listed that
holds what an unlisted address reads as. -/
def Memory.wf : Memory → Bool
  | [] => true
  | c :: m => decide (c.1 < Config.memSize) && decide (c.2 ≠ Config.unwritten) && Memory.above c.1 m
      && Memory.wf m

end Sys2Proof.Machine
end

