-- ==== Sys2Proof/Machine/Ops.lean ====
section
/-! DEFINITION. The named operations over registers, memory, PC, stack and output, and the taking of
faults and interrupts with the return from them. -/

namespace Sys2Proof.Machine

/-! ## Registers -/

/-- `IM_INDEX` (R5): IM is R5 (R26). -/
abbrev imIndex : RegIndex := 5#3

/-- `IS_INDEX` (R5): IS is R6 (R26). -/
abbrev isIndex : RegIndex := 6#3

/-- `SP_INDEX` (R5): SP is R7 (R26). -/
abbrev spIndex : RegIndex := 7#3

/-- R[r] (R20). -/
def State.reg (s : State) (r : RegIndex) : Byte := s.regs[r.toNat]'r.isLt

/-- R[r] written (R20). -/
def State.setReg (s : State) (r : RegIndex) (v : Byte) : State :=
  { s with regs := s.regs.set r.toNat v r.isLt }

/-- IM, the interrupt mask (R23). -/
abbrev State.im (s : State) : Byte := s.reg imIndex

/-- IS, the interrupt status (R24). -/
abbrev State.is (s : State) : Byte := s.reg isIndex

/-- SP, the stack pointer (R25). -/
abbrev State.sp (s : State) : Byte := s.reg spIndex

/-! ## Memory -/

/-- The byte at a byte address, which is always inside memory (R63, R66). -/
def State.loadByte (s : State) (a : Byte) : Byte := s.mem.read a.toNat

/-- The byte at a byte address written, every other cell as it was (R63, R67). -/
def State.storeByte (s : State) (a v : Byte) : State := { s with mem := s.mem.write a.toNat v }

/-- The memory's read contract on any integer address (R61). -/
def State.memGet (s : State) (a : Nat) : Except FaultKind Byte :=
  if a < Config.memSize then .ok (s.mem.read a) else .error .outOfBoundsAccess

/-- The memory's write contract on any integer address (R61). -/
def State.memSet (s : State) (a : Nat) (v : Byte) : Except FaultKind State :=
  if a < Config.memSize then .ok { s with mem := s.mem.write a v } else .error .outOfBoundsAccess

/-! ## PC, output, status -/

/-- PC assigned (R31). -/
def State.setPc (s : State) (a : Nat) : State := { s with pc := a }

/-- PC advanced by an instruction's length; it does not wrap (R30, R31). -/
def State.advance (s : State) (n : Nat) : State := { s with pc := s.pc + n }

/-- An event appended to the output trace (R44, R52). -/
def State.emit (s : State) (k : EmitKind) (v : Byte) : State :=
  { s with output := s.output ++ [⟨k, v⟩] }

/-- The status Halted (R111). -/
def State.halt (s : State) : State := { s with status := .halted }

/-- The latch IEN written (R41). -/
def State.setIen (s : State) (b : Bool) : State := { s with ien := b }

/-- LT written (R42). -/
def State.setLt (s : State) (t : Int) : State := { s with lt := t }

/-! ## Faults -/

/-- A fault taken: the status becomes Faulted(k), all else as at the start of the phase (R222). -/
def State.raise (s : State) (k : FaultKind) : State := { s with status := .faulted k }

/-- The numeric code of a fault kind in the status output (R54, R220). -/
def FaultKind.code : FaultKind → Nat
  | .illegalOpcode => 1
  | .outOfBoundsAccess => 2
  | .divisionByZero => 3
  | .invalidRegister => 4

/-- The end of a phase that began in `s`: its result, or its fault with every write of the phase
undone (R222). -/
def State.finish (s : State) : Except FaultKind State → Host.Outcome State Fault Refusal
  | .ok t => .next t
  | .error k => .next (s.raise k)

/-! ## Stack -/

/-- SP decremented before a push; SP = 0 raises OutOfBoundsAccess (R160). -/
def State.spDown (s : State) : Except FaultKind State :=
  if s.sp = 0#8 then .error .outOfBoundsAccess else .ok (s.setReg spIndex (s.sp - 1#8))

/-- SP incremented after a pop; SP = 255 raises OutOfBoundsAccess (R161). -/
def State.spUp (s : State) : Except FaultKind State :=
  if s.sp = 255#8 then .error .outOfBoundsAccess else .ok (s.setReg spIndex (s.sp + 1#8))

/-- `push(v)` (R160). -/
def State.push (s : State) (v : Byte) : Except FaultKind State :=
  match s.spDown with
  | .error k => .error k
  | .ok t => .ok (t.storeByte t.sp v)

/-- `pop()` (R161): the byte and the state after. -/
def State.pop (s : State) : Except FaultKind (Byte × State) :=
  match s.spUp with
  | .error k => .error k
  | .ok t => .ok (s.loadByte s.sp, t)

/-- Several pushes in order (R238). -/
def State.pushAll (s : State) : List Byte → Except FaultKind State
  | [] => .ok s
  | v :: vs =>
    match s.push v with
    | .error k => .error k
    | .ok t => t.pushAll vs

/-- One pop into each of several registers in order (R204). -/
def State.popInto (s : State) : List RegIndex → Except FaultKind State
  | [] => .ok s
  | r :: rs =>
    match s.pop with
    | .error k => .error k
    | .ok (v, t) => (t.setReg r v).popInto rs

/-! ## Interrupt entry and return -/

/-- The bytes interrupt entry pushes, in order: PC, FL zero-extended, R0 to R5 (R238, R241). PC is in
[0, 255] there, since phase A comes first (R96). -/
def State.context (s : State) : List Byte :=
  [BitVec.ofNat 8 s.pc, flagsByte s.fl, s.reg 0#3, s.reg 1#3, s.reg 2#3, s.reg 3#3, s.reg 4#3,
    s.reg 5#3]

/-- Taking the interrupt at clock `now` (R238): IEN and IS cleared, the context pushed, PC from the
vector as it reads after the pushes (R240), LT set. -/
def State.interruptEntry (s : State) (now : Int) : Except FaultKind State :=
  let s₁ := (s.setIen false).setReg isIndex 0#8
  match s₁.pushAll s₁.context with
  | .error k => .error k
  | .ok t => .ok ((t.setPc (t.loadByte Config.vectorAddr).toNat).setLt now)

/-- The return from an interrupt (R204): the context popped in the reverse order, IEN set. -/
def State.interruptReturn (s : State) : Except FaultKind State :=
  match s.popInto [5#3, 4#3, 3#3, 2#3, 1#3, 0#3] with
  | .error k => .error k
  | .ok t =>
    match t.pop with
    | .error k => .error k
    | .ok (f, t₁) =>
      match (t₁.setFl (flagsOfByte f)).pop with
      | .error k => .error k
      | .ok (p, t₂) => .ok ((t₂.setPc p.toNat).setIen true)

end Sys2Proof.Machine
end

