-- ==== Sys2Proof/Machine/Operands.lean ====
section
/-! DEFINITION. The operand forms: the register file's contract, a register pair, the store address,
a jump target and a return address. -/

namespace Sys2Proof.Machine

/-- The register file's `get` on any integer index (R21). -/
def State.regGet (s : State) (i : Nat) : Except FaultKind Byte :=
  if h : i < 8 then .ok (s.regs[i]'h) else .error .invalidRegister

/-- The register file's `set` on any integer index (R21). -/
def State.regSet (s : State) (i : Nat) (v : Byte) : Except FaultKind State :=
  if h : i < 8 then .ok { s with regs := s.regs.set i v h } else .error .invalidRegister

/-- The effective address of ST: the register's byte, with no offset (R190). -/
def State.storeAddress (s : State) (ra : RegIndex) : Byte := s.reg ra

/-- The target of a jump or a call: the register's byte as an address (R164, R166). -/
def State.jumpTarget (s : State) (ra : RegIndex) : Nat := (s.reg ra).toNat

/-- The return address CALL pushes, PC + 2, which must be a byte (R164). -/
def State.returnAddress (s : State) : Except FaultKind Byte :=
  if s.pc + 2 > 255 then .error .outOfBoundsAccess else .ok (BitVec.ofNat 8 (s.pc + 2))

end Sys2Proof.Machine
end

