-- ==== Sys2Proof/Machine/Alu.lean ====
section
/-! DEFINITION. The arithmetic unit (R130 to R137) and its instructions ADD, MUL, DIV, COMP. -/

namespace Sys2Proof.Machine

/-- The ALU's operations (R130); no opcode selects Subtract (R132). -/
inductive AluOp where
  /-- Add (R131). -/
  | add
  /-- Subtract (R132). -/
  | subtract
  /-- Multiply (R133). -/
  | multiply
  /-- Divide (R134). -/
  | divide
deriving DecidableEq, Repr

/-- The ALU's output `dz`: a division by zero (R134). -/
def aluDz : AluOp → Byte → Bool
  | .divide, b => b == 0#8
  | .add, _ => false
  | .subtract, _ => false
  | .multiply, _ => false

/-- The ALU's output `result`, reduced modulo 256 (R131 to R134); none where `dz` is 1. -/
def aluResult (op : AluOp) (a b : Byte) : Option Byte :=
  if aluDz op b then none
  else match op with
    | .add => some (a + b)
    | .subtract => some (a - b)
    | .multiply => some (a * b)
    | .divide => some (a / b)

/-- The ALU's contract `apply` (R130): both registers read, then the destination written, or
DivisionByZero raised (R134, R136). -/
def State.aluApply (s : State) (op : AluOp) (dest src : RegIndex) : Except FaultKind State :=
  match aluResult op (s.reg dest) (s.reg src) with
  | some v => .ok (s.setReg dest v)
  | none => .error .divisionByZero

/-- An instruction that applies the ALU and advances PC by 3 (R140 to R142). -/
def State.aluInstr (s : State) (op : AluOp) (ra rb : RegIndex) : Except FaultKind State :=
  match s.aluApply op ra rb with
  | .ok t => .ok (t.advance 3)
  | .error k => .error k

/-- ADD (R140). -/
def execAdd (ra rb : RegIndex) (s : State) : Host.Outcome State Fault Refusal :=
  s.finish (s.aluInstr .add ra rb)

/-- MUL (R141). -/
def execMul (ra rb : RegIndex) (s : State) : Host.Outcome State Fault Refusal :=
  s.finish (s.aluInstr .multiply ra rb)

/-- DIV (R142). -/
def execDiv (ra rb : RegIndex) (s : State) : Host.Outcome State Fault Refusal :=
  s.finish (s.aluInstr .divide ra rb)

/-- COMP (R143). -/
def execComp (ra rb : RegIndex) (s : State) : Host.Outcome State Fault Refusal :=
  .next ((s.setFl (compareFlags (s.reg ra) (s.reg rb))).advance 3)

end Sys2Proof.Machine
end

