-- ==== Sys2Proof/Machine/Basic.lean ====
section
/-! DEFINITION. The basic instructions: NOP, HLT, LDI, PRN, PRA (R110 to R114). -/

namespace Sys2Proof.Machine

/-- NOP (R110). -/
def execNop (s : State) : Host.Outcome State Fault Refusal := .next (s.advance 1)

/-- HLT (R111): PC keeps the address of the opcode. -/
def execHlt (s : State) : Host.Outcome State Fault Refusal := .next s.halt

/-- LDI (R112). -/
def execLdi (ra : RegIndex) (imm8 : Byte) (s : State) : Host.Outcome State Fault Refusal :=
  .next ((s.setReg ra imm8).advance 3)

/-- PRN (R113). -/
def execPrn (ra : RegIndex) (s : State) : Host.Outcome State Fault Refusal :=
  .next ((s.emit .decimal (s.reg ra)).advance 2)

/-- PRA (R114). -/
def execPra (ra : RegIndex) (s : State) : Host.Outcome State Fault Refusal :=
  .next ((s.emit .char (s.reg ra)).advance 2)

end Sys2Proof.Machine
end

