-- ==== Sys2Proof/Machine/Jump.lean ====
section
/-! DEFINITION. The jumps: JMP, JEQ, JNE (R166 to R168). -/

namespace Sys2Proof.Machine

/-- A jump through a register if a condition holds, else PC past the instruction's two bytes. -/
def State.jumpIf (s : State) (c : Bool) (ra : RegIndex) : State :=
  if c then s.setPc (s.jumpTarget ra) else s.advance 2

/-- JMP (R166). -/
def execJmp (ra : RegIndex) (s : State) : Host.Outcome State Fault Refusal :=
  .next (s.setPc (s.jumpTarget ra))

/-- JEQ (R167). -/
def execJeq (ra : RegIndex) (s : State) : Host.Outcome State Fault Refusal :=
  .next (s.jumpIf s.flagE ra)

/-- JNE (R168). -/
def execJne (ra : RegIndex) (s : State) : Host.Outcome State Fault Refusal :=
  .next (s.jumpIf (!s.flagE) ra)

end Sys2Proof.Machine
end

