-- ==== Sys2Proof/Machine/Reserved.lean ====
section
/-! DEFINITION. The reserved instructions: INC, INTE, IRET (R200 to R204). -/

namespace Sys2Proof.Machine

/-- INC (R201): no state changes, PC included (R200). -/
def execInc (s : State) : Host.Outcome State Fault Refusal := .next s

/-- INTE (R202): no state changes, PC included (R200). -/
def execInte (s : State) : Host.Outcome State Fault Refusal := .next s

/-- IRET: nothing when P_IRET is noop (R203), the return from the interrupt when it is intended
(R204). -/
def execIret (s : State) : Host.Outcome State Fault Refusal :=
  match s.pIret with
  | .noop => .next s
  | .intended => s.finish s.interruptReturn

end Sys2Proof.Machine
end

