-- ==== Sys2Proof/Machine/Stack.lean ====
section
/-! DEFINITION. The stack instructions: PUSH, POP, CALL, RET (R162 to R165). -/

namespace Sys2Proof.Machine

/-- PUSH (R162): the register is read after SP's decrement. -/
def execPush (ra : RegIndex) (s : State) : Host.Outcome State Fault Refusal :=
  s.finish (match s.spDown with
    | .error k => .error k
    | .ok t => .ok ((t.storeByte t.sp (t.reg ra)).advance 2))

/-- POP (R163): SP is tested and incremented after the register is written. -/
def execPop (ra : RegIndex) (s : State) : Host.Outcome State Fault Refusal :=
  s.finish (match (s.setReg ra (s.loadByte s.sp)).spUp with
    | .error k => .error k
    | .ok t => .ok (t.advance 2))

/-- CALL (R164): the target register is read after SP's decrement. -/
def execCall (ra : RegIndex) (s : State) : Host.Outcome State Fault Refusal :=
  s.finish (match s.returnAddress with
    | .error k => .error k
    | .ok a =>
      match s.push a with
      | .error k => .error k
      | .ok t => .ok (t.setPc (t.jumpTarget ra)))

/-- RET (R165): the popped cell is cleared. -/
def execRet (s : State) : Host.Outcome State Fault Refusal :=
  s.finish (((s.setPc (s.loadByte s.sp).toNat).storeByte s.sp 0#8).spUp)

end Sys2Proof.Machine
end

