-- ==== Sys2Proof/Machine/Store.lean ====
section
/-! DEFINITION. The store instruction ST (R190). -/

namespace Sys2Proof.Machine

/-- ST (R190). -/
def execSt (ra rb : RegIndex) (s : State) : Host.Outcome State Fault Refusal :=
  .next ((s.storeByte (s.storeAddress ra) (s.reg rb)).advance 3)

end Sys2Proof.Machine
end

