-- ==== Sys2Proof/Syntax.lean ====
section
/-! DEFINITION. The instructions of SC8, one constructor per row of the opcode table (R87). -/

namespace Sys2Proof

/-- The four instruction formats (R81). -/
inductive Format where
  /-- The opcode byte alone. -/
  | n
  /-- The opcode byte and one register operand byte. -/
  | r
  /-- The opcode byte and two register operand bytes. -/
  | rr
  /-- The opcode byte, one register operand byte and one immediate byte. -/
  | ri
deriving DecidableEq, Repr

/-- The 20 instructions (R87). A register operand is the index its byte selects (R83). -/
inductive Instr where
  /-- NOP (R110). -/
  | nop
  /-- HLT (R111). -/
  | hlt
  /-- LDI ra, imm8 (R112). -/
  | ldi (ra : RegIndex) (imm8 : Byte)
  /-- PRN ra (R113). -/
  | prn (ra : RegIndex)
  /-- PRA ra (R114). -/
  | pra (ra : RegIndex)
  /-- ADD ra, rb (R140). -/
  | add (ra rb : RegIndex)
  /-- MUL ra, rb (R141). -/
  | mul (ra rb : RegIndex)
  /-- DIV ra, rb (R142). -/
  | div (ra rb : RegIndex)
  /-- COMP ra, rb, also written CMP (R143). -/
  | comp (ra rb : RegIndex)
  /-- PUSH ra (R162). -/
  | push (ra : RegIndex)
  /-- POP ra (R163). -/
  | pop (ra : RegIndex)
  /-- CALL ra (R164). -/
  | call (ra : RegIndex)
  /-- RET (R165). -/
  | ret
  /-- JMP ra (R166). -/
  | jmp (ra : RegIndex)
  /-- JEQ ra (R167). -/
  | jeq (ra : RegIndex)
  /-- JNE ra (R168). -/
  | jne (ra : RegIndex)
  /-- ST ra, rb (R190). -/
  | st (ra rb : RegIndex)
  /-- INC, reserved (R201). -/
  | inc
  /-- INTE, reserved (R202). -/
  | inte
  /-- IRET, reserved (R203) or with its intended contract (R204). -/
  | iret
deriving DecidableEq, Repr

end Sys2Proof
end

