-- ==== Sys2Proof/Machine/Dispatch.lean ====
section
/-! DEFINITION. The dispatch table: one meaning per instruction (R87, R98). -/

namespace Sys2Proof.Machine

/-- Each instruction's rule, run in phase C of a step (R95). -/
def exec (i : Instr) (s : State) : Host.Outcome State Fault Refusal :=
  match i with
  | .nop => Sys2Proof.Machine.execNop s
  | .hlt => Sys2Proof.Machine.execHlt s
  | .ldi ra imm8 => Sys2Proof.Machine.execLdi ra imm8 s
  | .prn ra => Sys2Proof.Machine.execPrn ra s
  | .pra ra => Sys2Proof.Machine.execPra ra s
  | .add ra rb => Sys2Proof.Machine.execAdd ra rb s
  | .mul ra rb => Sys2Proof.Machine.execMul ra rb s
  | .div ra rb => Sys2Proof.Machine.execDiv ra rb s
  | .comp ra rb => Sys2Proof.Machine.execComp ra rb s
  | .push ra => Sys2Proof.Machine.execPush ra s
  | .pop ra => Sys2Proof.Machine.execPop ra s
  | .call ra => Sys2Proof.Machine.execCall ra s
  | .ret => Sys2Proof.Machine.execRet s
  | .jmp ra => Sys2Proof.Machine.execJmp ra s
  | .jeq ra => Sys2Proof.Machine.execJeq ra s
  | .jne ra => Sys2Proof.Machine.execJne ra s
  | .st ra rb => Sys2Proof.Machine.execSt ra rb s
  | .inc => Sys2Proof.Machine.execInc s
  | .inte => Sys2Proof.Machine.execInte s
  | .iret => Sys2Proof.Machine.execIret s

end Sys2Proof.Machine
end

