-- ==== Sys2Proof/Decode.lean ====
section
/-! DEFINITION. The opcode table (R87), the decoder over bytes, and the encoder. -/

namespace Sys2Proof

/-- Why a byte string holds no instruction. -/
inductive DecodeError where
  /-- There is no opcode byte. -/
  | opcodeMissing
  /-- The opcode byte has no row in the table (R90). -/
  | illegalOpcode
  /-- The opcode's operand bytes are cut short (R85). -/
  | operandMissing
deriving DecidableEq, Repr

/-- A row's format with the instruction its operands make (R81). -/
inductive Shape where
  /-- Format N. -/
  | n (i : Instr)
  /-- Format R. -/
  | r (f : RegIndex → Instr)
  /-- Format RR. -/
  | rr (f : RegIndex → RegIndex → Instr)
  /-- Format RI. -/
  | ri (f : RegIndex → Byte → Instr)

/-- The opcode table (R87), in the spec's order. -/
def opcodeTable : List (Byte × Shape) := [
  (0x00#8, .n .nop),
  (0x01#8, .n .hlt),
  (0x82#8, .ri .ldi),
  (0x47#8, .r .prn),
  (0x48#8, .r .pra),
  (0xA0#8, .rr .add),
  (0xA2#8, .rr .mul),
  (0xA3#8, .rr .div),
  (0xA7#8, .rr .comp),
  (0x45#8, .r .push),
  (0x46#8, .r .pop),
  (0x50#8, .r .call),
  (0x11#8, .n .ret),
  (0x54#8, .r .jmp),
  (0x55#8, .r .jeq),
  (0x56#8, .r .jne),
  (0x84#8, .rr .st),
  (0x65#8, .n .inc),
  (0x52#8, .n .inte),
  (0x13#8, .n .iret)]

/-- The row of an opcode byte, compared in all eight bits (R82); none for an illegal byte (R90). -/
def opcodeShape (op : Byte) : Option Shape := opcodeTable.lookup op

/-- The register a register operand byte selects: its low three bits (R83). -/
def regOperand (b : Byte) : RegIndex := b.extractLsb' 0 3

/-- The immediate an operand byte holds: the whole byte (R84). -/
def immOperand (b : Byte) : Byte := b

/-- The instruction a row makes of the bytes after the opcode, and the bytes left over. -/
def decodeOperands : Shape → List Byte → Except DecodeError (Instr × List Byte)
  | .n i, rest => .ok (i, rest)
  | .r f, a :: rest => .ok (f (regOperand a), rest)
  | .rr f, a :: b :: rest => .ok (f (regOperand a) (regOperand b), rest)
  | .ri f, a :: v :: rest => .ok (f (regOperand a) (immOperand v), rest)
  | .r _, [] => .error .operandMissing
  | .rr _, [] => .error .operandMissing
  | .rr _, [_] => .error .operandMissing
  | .ri _, [] => .error .operandMissing
  | .ri _, [_] => .error .operandMissing

/-- The instruction at the head of a byte string, and the bytes after it (R80, R82, R85). -/
def decode : List Byte → Except DecodeError (Instr × List Byte)
  | [] => .error .opcodeMissing
  | op :: rest =>
    match opcodeShape op with
    | none => .error .illegalOpcode
    | some sh => decodeOperands sh rest

/-- The opcode byte of an instruction (R87). -/
def Instr.opcode : Instr → Byte
  | .nop => 0x00#8
  | .hlt => 0x01#8
  | .ldi _ _ => 0x82#8
  | .prn _ => 0x47#8
  | .pra _ => 0x48#8
  | .add _ _ => 0xA0#8
  | .mul _ _ => 0xA2#8
  | .div _ _ => 0xA3#8
  | .comp _ _ => 0xA7#8
  | .push _ => 0x45#8
  | .pop _ => 0x46#8
  | .call _ => 0x50#8
  | .ret => 0x11#8
  | .jmp _ => 0x54#8
  | .jeq _ => 0x55#8
  | .jne _ => 0x56#8
  | .st _ _ => 0x84#8
  | .inc => 0x65#8
  | .inte => 0x52#8
  | .iret => 0x13#8

/-- The format of an instruction (R81). -/
def Instr.format : Instr → Format
  | .nop | .hlt | .ret | .inc | .inte | .iret => .n
  | .prn _ | .pra _ | .push _ | .pop _ | .call _ | .jmp _ | .jeq _ | .jne _ => .r
  | .add _ _ | .mul _ _ | .div _ _ | .comp _ _ | .st _ _ => .rr
  | .ldi _ _ => .ri

/-- The number of bytes an instruction of a format has (R80, R81). -/
def Format.length : Format → Nat
  | .n => 1
  | .r => 2
  | .rr => 3
  | .ri => 3

/-- The register operand byte the assembler writes: bits 7 to 3 zero (R92). -/
def encodeReg (r : RegIndex) : Byte := r.setWidth 8

/-- The operand bytes of an instruction (R81). -/
def encodeOperands : Instr → List Byte
  | .nop | .hlt | .ret | .inc | .inte | .iret => []
  | .prn ra | .pra ra | .push ra | .pop ra | .call ra | .jmp ra | .jeq ra | .jne ra => [encodeReg ra]
  | .add ra rb | .mul ra rb | .div ra rb | .comp ra rb | .st ra rb => [encodeReg ra, encodeReg rb]
  | .ldi ra imm8 => [encodeReg ra, imm8]

/-- The bytes of an instruction, in address order (R80, R87). -/
def encode (i : Instr) : List Byte := i.opcode :: encodeOperands i

/-- The three bytes, lowest address first, of an instruction whose bits are `w`, bit 0 the least
significant bit of the first byte, with every bit from `nbits` up zero. -/
def tableBytes (nbits w : Nat) : List Byte :=
  let v := w % 2 ^ nbits
  [BitVec.ofNat 8 v, BitVec.ofNat 8 (v / 256), BitVec.ofNat 8 (v / 65536)]

/-- The instruction the decoder reads from a word of the opcode table. -/
def decodeTableWord (nbits w : Nat) : Option Instr :=
  match decode (tableBytes nbits w) with
  | .ok (i, _) => some i
  | .error _ => none

end Sys2Proof
end

