-- ==== Sys2Proof/Machine/Fetch.lean ====
section
/-! DEFINITION. Fetch and decode: the first half of phase C (R85, R95). -/

namespace Sys2Proof.Machine

/-- Up to `n` bytes from an address on, ending before the first address outside memory (R61, R65). -/
def State.fetchBytes (s : State) (a : Nat) : Nat → List Byte
  | 0 => []
  | n + 1 =>
    match s.memGet a with
    | .error _ => []
    | .ok b => b :: s.fetchBytes (a + 1) n

/-- The longest instruction, in bytes (R80). -/
def maxLength : Nat := 3

/-- The fault of a failed decode: an illegal byte (R90), or an address above 255 (R85). -/
def decodeFault : DecodeError → FaultKind
  | .opcodeMissing => .outOfBoundsAccess
  | .illegalOpcode => .illegalOpcode
  | .operandMissing => .outOfBoundsAccess

/-- The instruction at PC, or the fault its fetch raises (R95, R228). -/
def State.fetch (s : State) : Except FaultKind Instr :=
  match decode (s.fetchBytes s.pc maxLength) with
  | .ok (i, _) => .ok i
  | .error e => .error (decodeFault e)

end Sys2Proof.Machine
end

