-- ==== Sys2Proof/Machine/Interrupt.lean ====
section
/-! DEFINITION. The clock input, the interrupt controller (R235 to R239), and phases A and B of a
step (R95). -/

namespace Sys2Proof.Machine

/-- The controller is armed: IEN = 1 and IM[0] = 1 (R235). -/
def State.armed (s : State) : Bool := s.ien && s.im.getLsbD 0

/-- The value the clock input has at its next reading: never below the last one (R53).
DESIGN CHOICE, log entry 3. -/
def State.now (s : State) : Int := s.clock + (Config.clockAdvance s.clockReads : Int)

/-- The clock input read by an armed controller; an unarmed one reads nothing (R236).
DESIGN CHOICE, log entry 4. -/
def State.pollClock (s : State) : State :=
  if s.armed then { s with clock := s.now, clockReads := s.clockReads + 1 } else s

/-- The timer condition `now - LT >= ONE_SECOND` (R237). -/
def State.timerDue (s : State) (oneSecond : Nat) (now : Int) : Bool :=
  decide (now - s.lt ≥ (oneSecond : Int))

/-- The lowest bit that is 1 in `IM & IS`, by a scan from the least significant (R238). -/
def scanMasked (masked : Byte) : Option Nat :=
  [0, 1, 2, 3, 4, 5, 6, 7].find? (fun i => masked.getLsbD i)

/-- The interrupt check with `oneSecond` clock units in a second, at clock `now` (R238). -/
def State.interruptCheck (s : State) (oneSecond : Nat) (now : Int) : Except FaultKind State :=
  if s.armed then
    if s.timerDue oneSecond now then
      let t := s.setReg isIndex 1#8
      match scanMasked (t.im &&& t.is) with
      | some _ => t.interruptEntry now
      | none => .ok t
    else .ok s
  else .ok s

/-- Phase A: a PC past the last address raises OutOfBoundsAccess (R95, R96). -/
def State.phaseA (s : State) : Except FaultKind State :=
  if s.pc > 255 then .error .outOfBoundsAccess else .ok s

/-- Phase B: the interrupt check at the clock value just read (R95, R238). -/
def State.phaseB (s : State) : Except FaultKind State := s.interruptCheck Config.oneSecond s.clock

end Sys2Proof.Machine
end

