-- ==== Sys2Proof/WellFormed.lean ====
section
/-! DEFINITION. What makes an instruction's bytes and a program load well formed.

A term of `Instr` is well formed by its types: a register index has three bits and an immediate
eight (R83, R84). What can be ill formed is the byte string an assembler writes (R92) and a load
(R50), so those are what is checked here. -/

namespace Sys2Proof

/-- A register operand byte as the assembler writes it: 0x00 to 0x07 (R92). -/
def registerByteOk (b : Byte) : Bool := b.extractLsb' 3 5 == 0#5

/-- The bytes of one instruction of a format as the assembler writes them (R81, R92): the format's
length, and bits 7 to 3 of each register operand byte zero. -/
def encodingOk : Format → List Byte → Bool
  | .n, [_] => true
  | .r, [_, a] => registerByteOk a
  | .rr, [_, a, b] => registerByteOk a && registerByteOk b
  | .ri, [_, a, _] => registerByteOk a
  | .n, _ => false
  | .r, _ => false
  | .rr, _ => false
  | .ri, _ => false

/-- A load of `n` bytes at `start` fits in memory (R50). -/
def loadFits (start : Byte) (n : Nat) : Bool := decide (start.toNat + n ≤ 256)

end Sys2Proof
end

