-- ==== Sys2Proof/Machine/Load.lean ====
section
/-! DEFINITION. The host interface: loading a program and starting the core (R50, R51). -/

namespace Sys2Proof.Machine

/-- Bytes copied into memory from an address on; an address outside memory takes none (R61). -/
def State.placeBytes (s : State) (a : Nat) : List Byte → State
  | [] => s
  | v :: vs =>
    match s.memSet a v with
    | .error _ => s
    | .ok t => t.placeBytes (a + 1) vs

/-- `load(bytes, startAddress)`, at the default load address where none is given (R50, R68): none
where the host rejects a load that does not fit. The spec loads only before the start; that the
function takes any state is a DESIGN CHOICE, log entry 16. -/
def State.load (s : State) (bytes : List Byte) (start : Byte := Config.loadAddress) : Option State :=
  if loadFits start bytes.length then some (s.placeBytes start.toNat bytes) else none

/-- The host starts the core (R51): Running, at PC 0 whatever address the load used. The spec starts
only a core just reset and loaded; that the function takes any state, one that runs or has stopped
(R43) included, is a DESIGN CHOICE, log entry 16. -/
def State.start (s : State) : State := { s with status := .running, pc := Config.pcReset }

/-- A machine constructed, loaded and started (R50, R51, R270), loaded at the default address where
none is given (R68); none for a rejected load (R227). -/
def boot (p : PIret) (now : Int) (bytes : List Byte) (start : Byte := Config.loadAddress) :
    Option State :=
  ((State.initial p now).load bytes start).map State.start

end Sys2Proof.Machine
end

