-- ==== Sys2Proof/Machine/Cycle.lean ====
section
/-! DEFINITION. The three phases of one step of a running core (R95). -/

namespace Sys2Proof.Machine

/-- Phase C: fetch, decode, dispatch, execute (R95, R97). -/
def State.phaseC (s : State) : Host.Outcome State Fault Refusal :=
  match s.fetch with
  | .error k => .next (s.raise k)
  | .ok i => exec i s

/-- Phases B and C, from a state whose clock input has been read. -/
def State.phasesBC (s : State) : Host.Outcome State Fault Refusal :=
  match s.phaseB with
  | .error k => .next (s.raise k)
  | .ok t => t.phaseC

/-- One step of a running core: phases A, B and C in order (R95). -/
def State.runStep (s : State) : Host.Outcome State Fault Refusal :=
  match s.phaseA with
  | .error k => .next (s.raise k)
  | .ok t => t.pollClock.phasesBC

end Sys2Proof.Machine
end

