-- ==== Sys2Proof/Machine/Step.lean ====
section
/-! DEFINITION. One step of the machine (R94, R95), and the placing of an instruction for it. -/

namespace Sys2Proof.Machine

/-- One step: a running core runs its three phases, a stopped one takes no step (R43, R94). -/
def step (s : State) : Host.Outcome State Fault Refusal :=
  match s.status with
  | .running => s.runStep
  | .halted => .fault .halted
  | .faulted k => .fault (.faulted k)

/-- The state with the instruction whose bits are `w` stored at PC, where the next step fetches:
what the host's load does for a program (R50; log entry 9). -/
def State.withFetchWord (s : State) (nbits w : Nat) : State := s.placeBytes s.pc (tableBytes nbits w)

end Sys2Proof.Machine
end

