-- ==== Sys2Proof/Safety.lean ====
section
/-! DEFINITION. The terms the statements use: what a transition leaves unchanged, a fault outcome,
and the invariants of the machine. -/

namespace Sys2Proof.Machine

/-- Every register outside a list reads as before. -/
def SameRegsBut (rs : List RegIndex) (s t : State) : Prop := ∀ r, r ∉ rs → t.reg r = s.reg r

/-- Every byte of memory reads as before. -/
def SameMem (s t : State) : Prop := ∀ a : Nat, t.mem.read a = s.mem.read a

/-- Every byte of memory but the one at `b` reads as before. -/
def SameMemBut (b : Byte) (s t : State) : Prop :=
  ∀ a : Nat, a ≠ b.toNat → t.mem.read a = s.mem.read a

/-- The interrupt controller's hidden state (R40) and the environment are as before: IEN, LT, the
parameter P_IRET and the clock, the last two in the model's own fields (log entries 3 and 7). -/
def SameHidden (s t : State) : Prop :=
  t.ien = s.ien ∧ t.lt = s.lt ∧ t.pIret = s.pIret ∧ t.clock = s.clock ∧ t.clockReads = s.clockReads

/-- Status, output trace and hidden state are as before. -/
def SameControl (s t : State) : Prop :=
  t.status = s.status ∧ t.output = s.output ∧ SameHidden s t

/-- An outcome that faults with kind `k` (R222): the status is Faulted(k) and the output trace is as
before. It says nothing of the rest of the state, which a claim must not read after a fault (R56). -/
def FaultsWith (k : FaultKind) (s : State) (o : Host.Outcome State Fault Refusal) : Prop :=
  ∃ t, o = .next t ∧ t.status = .faulted k ∧ t.output = s.output

/-- A state whose run has not ended in a fault, so that a claim may read all of it (R56). -/
def State.NotFaulted (s : State) : Prop := ∀ k, s.status ≠ .faulted k

/-- The timer interrupt is armed and due at the clock value last read (R235, R237). -/
def State.interruptDue (s : State) : Prop :=
  s.ien = true ∧ s.im.getLsbD 0 = true ∧ s.clock - s.lt ≥ (Config.oneSecond : Int)

/-- The invariant of the machine: memory in its canonical form, PC in [0, 256] (R30), and the last
interrupt not later than the clock (R42, R53). -/
def State.Inv (s : State) : Prop := s.mem.wf = true ∧ s.pc ≤ 256 ∧ s.lt ≤ s.clock

/-- At most one flag bit is 1: FL as reset and comparisons leave it (R34, R36). -/
def State.FlagsExclusive (s : State) : Prop :=
  s.fl = 0b000#3 ∨ s.fl = 0b001#3 ∨ s.fl = 0b010#3 ∨ s.fl = 0b100#3

/-! ## The tables of the spec's rules -/

/-- The opcode bytes of the table (R87), as the spec lists them. -/
def definedOpcodes : List Byte :=
  [0x00#8, 0x01#8, 0x82#8, 0x47#8, 0x48#8, 0xA0#8, 0xA2#8, 0xA3#8, 0xA7#8, 0x45#8, 0x46#8, 0x50#8,
    0x11#8, 0x54#8, 0x55#8, 0x56#8, 0x84#8, 0x65#8, 0x52#8, 0x13#8]

/-- The opcode bytes of the 2-byte instructions (R81, R87). -/
def twoByteOpcodes : List Byte :=
  [0x47#8, 0x48#8, 0x45#8, 0x46#8, 0x50#8, 0x54#8, 0x55#8, 0x56#8]

/-- The opcode bytes of the 3-byte instructions (R81, R87). -/
def threeByteOpcodes : List Byte := [0x82#8, 0xA0#8, 0xA2#8, 0xA3#8, 0xA7#8, 0x84#8]

/-- The registers an instruction may write (R27). -/
def writtenRegs (p : PIret) : Instr → List RegIndex
  | .ldi ra _ => [ra]
  | .add ra _ => [ra]
  | .mul ra _ => [ra]
  | .div ra _ => [ra]
  | .push _ => [7#3]
  | .pop ra => [ra, 7#3]
  | .call _ => [7#3]
  | .ret => [7#3]
  | .iret => match p with
    | .noop => []
    | .intended => [5#3, 4#3, 3#3, 2#3, 1#3, 0#3, 7#3]
  | .nop | .hlt | .prn _ | .pra _ | .comp _ _ | .jmp _ | .jeq _ | .jne _ | .st _ _ | .inc | .inte => []

/-- The address an instruction stores to, if it stores (R64, writes): SP - 1 for PUSH and CALL, SP
for RET, the address register for ST. -/
def storedAddress (s : State) : Instr → Option Byte
  | .push _ => some (s.sp - 1#8)
  | .call _ => some (s.sp - 1#8)
  | .ret => some s.sp
  | .st ra _ => some (s.storeAddress ra)
  | .nop | .hlt | .ldi _ _ | .prn _ | .pra _ | .add _ _ | .mul _ _ | .div _ _ | .comp _ _ | .pop _
  | .jmp _ | .jeq _ | .jne _ | .inc | .inte | .iret => none

/-- The machine runs the instruction `i` in the step from `s`: phase B leaves `u`, and `i` is what
its PC fetches (R95, R97). -/
def RunsFrom (s u : State) (i : Instr) : Prop :=
  s.pc ≤ 255 ∧ s.pollClock.phaseB = .ok u ∧
    ∃ rest, decode (u.fetchBytes u.pc maxLength) = .ok (i, rest)

/-- An opcode whose operand bytes reach past address 255 faults in phase C (R85), whatever its
operands. -/
def OperandFetchFaults (op : Byte) (length : Nat) : Prop :=
  ∀ s : State, s.pc ≤ 255 → 255 < s.pc + (length - 1) → s.mem.read s.pc = op →
    FaultsWith .outOfBoundsAccess s s.phaseC

/-- The cases in which phase C raises OutOfBoundsAccess (R224), at the state phase B left. -/
def PhaseCOutOfBounds (u : State) : Prop :=
  (u.mem.read u.pc ∈ twoByteOpcodes ∧ u.pc = 255) ∨
  (u.mem.read u.pc ∈ threeByteOpcodes ∧ 254 ≤ u.pc) ∨
  ((u.mem.read u.pc = 0x45#8 ∨ u.mem.read u.pc = 0x50#8) ∧ u.sp = 0#8) ∨
  (u.mem.read u.pc = 0x46#8 ∧ regOperand (u.mem.read (u.pc + 1)) ≠ 7#3 ∧ u.sp = 255#8) ∨
  (u.mem.read u.pc = 0x46#8 ∧ regOperand (u.mem.read (u.pc + 1)) = 7#3 ∧
    u.loadByte u.sp = 255#8) ∨
  (u.mem.read u.pc = 0x11#8 ∧ u.sp = 255#8) ∨
  (u.mem.read u.pc = 0x13#8 ∧ u.pIret = .intended ∧ 247 < u.sp.toNat) ∨
  (u.mem.read u.pc = 0x50#8 ∧ u.pc = 254)

end Sys2Proof.Machine
end

