-- ==== Sys2Proof/Certificates/Slice0/Obligations.lean ====
section
/-! DEFINITION. The statements about SC8, each from the rules of the spec its docstring names. -/

open Sys2Proof Sys2Proof.Machine

/-! ## Encoding -/

/-- A few words of the spec decode to their instructions (R81, R83, R87). -/
def Obligations.SpecWordsDecode : Prop :=
  decode [0x82#8, 0x03#8, 0x9C#8] = .ok (.ldi 3#3 0x9C#8, []) ∧
  decode [0x82#8, 0xFB#8, 0x07#8] = .ok (.ldi 3#3 0x07#8, []) ∧
  decode [0xA3#8, 0x00#8, 0x07#8, 0x01#8] = .ok (.div 0#3 7#3, [0x01#8]) ∧
  decode [0x84#8, 0x01#8, 0x00#8] = .ok (.st 1#3 0#3, []) ∧
  decode [0x47#8, 0x0F#8] = .ok (.prn 7#3, []) ∧
  decode [0x50#8, 0x02#8] = .ok (.call 2#3, []) ∧
  decode [0x11#8] = .ok (.ret, []) ∧
  decode [0x65#8, 0xFF#8] = .ok (.inc, [0xFF#8]) ∧
  decode [0xA1#8, 0x00#8, 0x01#8] = .error .illegalOpcode ∧
  decode [0x82#8, 0x00#8] = .error .operandMissing

/-- Decoding an encoded instruction gives it back, every operand at every value (R81 to R84, R87). -/
def Obligations.DecodeOfEncode : Prop :=
  ∀ (i : Instr) (rest : List Byte), decode (encode i ++ rest) = .ok (i, rest)

/-- Encoding a decoded instruction gives its bytes back where the bytes are as the assembler writes
them, bits 7 to 3 of each register operand zero (R83, R92). -/
def Obligations.EncodeOfDecode : Prop :=
  ∀ (bs : List Byte) (i : Instr) (rest : List Byte), decode bs = .ok (i, rest) →
    encodingOk i.format (bs.take i.format.length) = true → encode i ++ rest = bs

/-- Bits 7 to 3 of a register operand byte do not change the instruction (R83). -/
def Obligations.OperandHighBitsIgnored : Prop :=
  ∀ (op a a' b b' : Byte) (rest : List Byte), regOperand a = regOperand a' →
    (op = 0x82#8 → b = b') → (op ≠ 0x82#8 → regOperand b = regOperand b') →
    (decode (op :: a :: b :: rest)).map Prod.fst = (decode (op :: a' :: b' :: rest)).map Prod.fst

/-- The opcode byte alone tells an instruction's length (R80, R88). -/
def Obligations.LengthFromOpcode : Prop :=
  ∀ (op : Byte) (as bs : List Byte) (i j : Instr) (as' bs' : List Byte),
    decode (op :: as) = .ok (i, as') → decode (op :: bs) = .ok (j, bs') →
    i.format = j.format ∧ as.length + 1 = as'.length + i.format.length ∧
      bs.length + 1 = bs'.length + j.format.length

/-- A byte is refused as an opcode exactly if the table does not list it (R87, R90, R98). -/
def Obligations.IllegalExactlyOutsideTable : Prop :=
  ∀ (op : Byte) (rest : List Byte),
    decode (op :: rest) = .error .illegalOpcode ↔ op ∉ definedOpcodes

/-! ## The step -/

/-- A step of a running core at an address is phase C at the state phase B left, and phase C runs
the instruction its bytes decode to (R95, R97). Around `exec` the step adds the reading of the clock
(`pollClock`) and the interrupt check (`phaseB`); an unarmed controller makes both the identity. -/
def Obligations.StepRunsDecoded : Prop :=
  (∀ (s u : State) (i : Instr), s.status = .running → RunsFrom s u i → step s = exec i u) ∧
  (∀ (s : State) (i : Instr) (rest : List Byte), s.status = .running → s.pc ≤ 255 →
    s.armed = false → decode (s.fetchBytes s.pc maxLength) = .ok (i, rest) → step s = exec i s)

/-- The core steps exactly while its status is Running (R94): a step always ends in a next state,
never in a refusal, and a stopped core has none (that it answers a stop of the model instead is log
entry 2). -/
def Obligations.StepsExactlyWhileRunning : Prop :=
  ∀ s : State, (∃ t, step s = .next t) ↔ s.status = .running

/-- A PC past the last address faults in phase A, before the interrupt check (R96). It reads only
status and output (R56), and the clock, which phase A comes before. -/
def Obligations.PhaseAFaultsPastEnd : Prop :=
  ∀ s : State, s.status = .running → 255 < s.pc → FaultsWith .outOfBoundsAccess s (step s)

/-- A fetched byte outside the table raises IllegalOpcode, and nothing else does (R90, R223). -/
def Obligations.IllegalOpcodeExactly : Prop :=
  ∀ s t : State, step s = .next t →
    (t.status = .faulted .illegalOpcode ↔
      s.pc ≤ 255 ∧ ∃ u, s.pollClock.phaseB = .ok u ∧ u.pc ≤ 255 ∧
        u.mem.read u.pc ∉ definedOpcodes)

/-- OutOfBoundsAccess is raised in exactly the cases of the spec's table (R224). -/
def Obligations.OutOfBoundsExactly : Prop :=
  ∀ s t : State, step s = .next t →
    (t.status = .faulted .outOfBoundsAccess ↔
      255 < s.pc ∨
      (s.pc ≤ 255 ∧ s.pollClock.interruptDue ∧ s.sp.toNat < 8) ∨
      (s.pc ≤ 255 ∧ ∃ u, s.pollClock.phaseB = .ok u ∧ PhaseCOutOfBounds u))

/-- DivisionByZero is raised exactly by DIV with a zero divisor (R142, R225). -/
def Obligations.DivisionByZeroExactly : Prop :=
  ∀ s t : State, step s = .next t →
    (t.status = .faulted .divisionByZero ↔
      ∃ u ra rb, RunsFrom s u (.div ra rb) ∧ u.reg rb = 0#8)

/-- InvalidRegister is never raised (R226). -/
def Obligations.InvalidRegisterNever : Prop :=
  ∀ s t : State, step s = .next t → t.status ≠ .faulted .invalidRegister

/-- A faulting step leaves the output trace as it was (R222, R56). -/
def Obligations.FaultKeepsOutput : Prop :=
  ∀ (s t : State) (k : FaultKind), step s = .next t → t.status = .faulted k → t.output = s.output

/-- Only HLT ends a run normally (R43, R111, R274). -/
def Obligations.HaltOnlyByHlt : Prop :=
  ∀ s t : State, step s = .next t → t.status = .halted → ∃ u, RunsFrom s u .hlt

/-! ## Reset and load -/

/-- The state after reset (R45), for either value of P_IRET and whatever the clock reads. -/
def Obligations.ResetValues : Prop :=
  ∀ (p : PIret) (now : Int),
    (∀ a : Nat, (State.initial p now).mem.read a = 0x00#8) ∧
    (∀ r : RegIndex, (State.initial p now).reg r = if r = 7#3 then 0xF4#8 else 0x00#8) ∧
    (State.initial p now).pc = 0 ∧ (State.initial p now).fl = 0b000#3 ∧
    (State.initial p now).ien = true ∧ (State.initial p now).lt = now ∧
    (State.initial p now).clock = now ∧ (State.initial p now).status = .running ∧
    (State.initial p now).output = []

/-- A load that fits copies its bytes and changes nothing else; one that does not is rejected (R50).
That it speaks of every state, and not only of one before the start, is the model's (log entry 16). -/
def Obligations.LoadCopiesBytes : Prop :=
  ∀ (s : State) (start : Byte) (bytes : List Byte),
    (start.toNat + bytes.length ≤ 256 → ∃ t, s.load bytes start = some t ∧
      (∀ (k : Nat) (hk : k < bytes.length), t.mem.read (start.toNat + k) = bytes[k]) ∧
      (∀ a : Nat, a < start.toNat ∨ start.toNat + bytes.length ≤ a →
        t.mem.read a = s.mem.read a) ∧
      SameRegsBut [] s t ∧ t.pc = s.pc ∧ t.fl = s.fl ∧ SameControl s t) ∧
    (256 < start.toNat + bytes.length → s.load bytes start = none)

/-- A loaded machine starts Running at PC 0, wherever the program was loaded (R32, R51); a load with
no address given puts the program at 0, where it is entered (R50, R68). -/
def Obligations.StartAtZero : Prop :=
  (∀ (p : PIret) (now : Int) (start : Byte) (bytes : List Byte),
    start.toNat + bytes.length ≤ 256 → ∃ t, boot p now bytes start = some t ∧
      t.status = .running ∧ t.pc = 0 ∧
      ∀ (k : Nat) (hk : k < bytes.length), t.mem.read (start.toNat + k) = bytes[k]) ∧
  (∀ (p : PIret) (now : Int) (bytes : List Byte), bytes.length ≤ 256 →
    ∃ t, boot p now bytes = some t ∧ t.status = .running ∧ t.pc = 0 ∧
      ∀ (k : Nat) (hk : k < bytes.length), t.mem.read k = bytes[k])

/-! ## Invariants and whole-machine rules

The rules of what a step may write have the premise that it does not fault: after a fault only the
status and the output trace count (R56). -/

/-- The machine as constructed meets the invariants (R45): PC in [0, 256] (R30), the last interrupt
not later than the clock (R42) and the flag bits mutually exclusive (R34). That memory is in its
canonical form is the model's clause (log entry 15), and `State.reset` is the model's choice of the
clock at reset and of P_IRET (log entries 5 and 7); the first clause holds for every such choice. -/
def Obligations.ResetMeetsInvariants : Prop :=
  (∀ (p : PIret) (now : Int),
    (State.initial p now).Inv ∧ (State.initial p now).FlagsExclusive) ∧
  State.reset.Inv ∧ State.reset.FlagsExclusive

/-- Every step keeps memory canonical and inside its 256 cells, PC in [0, 256] (R30) and the last
interrupt not later than the clock (R42, R53). After a step that faults this reads the state the
rollback leaves (R222, the spec's decision D5, log entry 1); the canonical form is the model's (log
entry 15). -/
def Obligations.StepKeepsInvariant : Prop :=
  ∀ s t : State, s.Inv → step s = .next t → t.Inv

/-- When P_IRET is noop every step keeps the flag bits mutually exclusive (R34); the intended IRET
may restore any three bits (R204). -/
def Obligations.StepKeepsFlagsExclusive : Prop :=
  ∀ s t : State, s.pIret = .noop → s.FlagsExclusive → step s = .next t → t.NotFaulted →
    t.FlagsExclusive

/-- When P_IRET is noop and the latch is clear it stays clear and no interrupt is taken again (R41,
R244). -/
def Obligations.LatchStaysClearInNoopMode : Prop :=
  ∀ s t : State, s.pIret = .noop → s.ien = false → step s = .next t → t.NotFaulted →
    t.ien = false ∧ t.lt = s.lt

/-- The clock never runs back (R53) and the parameter P_IRET never changes (R5). Both are fields of
the model's own choice (log entries 3 and 7). -/
def Obligations.ClockForwardParameterFixed : Prop :=
  ∀ s t : State, step s = .next t → s.clock ≤ t.clock ∧ t.pIret = s.pIret

/-- FL is written only by COMP and by IRET with its intended contract (R34). -/
def Obligations.FlagsWrittenOnlyByComp : Prop :=
  ∀ s t : State, step s = .next t → t.NotFaulted → t.fl ≠ s.fl →
    ∃ u i, RunsFrom s u i ∧ ((∃ ra rb, i = .comp ra rb) ∨ (i = .iret ∧ s.pIret = .intended))

/-- LT starts as the clock at reset and is written only by interrupt entry, with the clock value of
the step (R42). -/
def Obligations.LastTimeWrittenOnlyByEntry : Prop :=
  (∀ (p : PIret) (now : Int), (State.initial p now).lt = now) ∧
  ∀ s t : State, step s = .next t → t.NotFaulted → t.lt ≠ s.lt → s.pollClock.interruptDue ∧ t.lt = s.now

/-- IEN is cleared only by interrupt entry and set only by IRET with its intended contract (R41,
R239). -/
def Obligations.LatchWritersOnly : Prop :=
  ∀ s t : State, step s = .next t → t.NotFaulted →
    (s.ien = true → t.ien = false → s.pollClock.interruptDue) ∧
    (s.ien = false → t.ien = true → s.pIret = .intended ∧ ∃ u, RunsFrom s u .iret)

/-- The output trace starts empty and is only appended to: by PRN and PRA, one event each (R44). -/
def Obligations.OutputOnlyByPrint : Prop :=
  (∀ (p : PIret) (now : Int), (State.initial p now).output = []) ∧
  ∀ s t : State, step s = .next t → t.output = s.output ∨
    (∃ u ra, RunsFrom s u (.prn ra) ∧ t.output = s.output ++ [⟨.decimal, u.reg ra⟩]) ∨
    (∃ u ra, RunsFrom s u (.pra ra) ∧ t.output = s.output ++ [⟨.char, u.reg ra⟩])

/-- The registers each instruction and interrupt entry may write; no other instruction writes one
(R27). -/
def Obligations.RegisterWriters : Prop :=
  (∀ (i : Instr) (s t : State), exec i s = .next t → t.NotFaulted →
    SameRegsBut (writtenRegs s.pIret i) s t) ∧
  (∀ s t : State, s.phaseB = .ok t → SameRegsBut [6#3, 7#3] s t) ∧
  (∀ s t : State, ¬ s.interruptDue → s.phaseB = .ok t → SameRegsBut [] s t)

/-- The bytes each instruction and interrupt entry may write (R62, R64). -/
def Obligations.MemoryWriters : Prop :=
  (∀ (i : Instr) (s t : State) (a : Nat), exec i s = .next t → t.NotFaulted →
    (∀ b, storedAddress s i = some b → a ≠ b.toNat) → t.mem.read a = s.mem.read a) ∧
  (∀ (s t : State) (a : Nat), s.phaseB = .ok t →
    (s.interruptDue → a < s.sp.toNat - 8 ∨ s.sp.toNat ≤ a) → t.mem.read a = s.mem.read a)

/-- The memory's contract (R61): a read or a write outside [0, 255] raises OutOfBoundsAccess, one
inside reads the cell, or writes that cell and no other. -/
def Obligations.MemoryContract : Prop :=
  ∀ (s : State) (a : Nat) (v : Byte),
    (255 < a → s.memGet a = .error .outOfBoundsAccess ∧ s.memSet a v = .error .outOfBoundsAccess) ∧
    (a ≤ 255 → s.memGet a = .ok (s.mem.read a) ∧
      ∃ t, s.memSet a v = .ok t ∧ t.memGet a = .ok v ∧
        ∀ b : Nat, b ≠ a → t.memGet b = s.memGet b)

/-- The register file's contract (R21): an index outside [0, 7] is an invalid register, one inside
reads or writes that register and no other. On the three-bit indices of an operand byte (R83) the
contract's registers are those the instructions read and write. -/
def Obligations.RegisterFileContract : Prop :=
  (∀ (s : State) (i : Nat) (v : Byte),
    (7 < i → s.regGet i = .error .invalidRegister ∧ s.regSet i v = .error .invalidRegister) ∧
    (i ≤ 7 → (∃ w, s.regGet i = .ok w) ∧ ∃ t, s.regSet i v = .ok t ∧ t.regGet i = .ok v ∧
      ∀ j : Nat, j ≠ i → t.regGet j = s.regGet j)) ∧
  (∀ (s : State) (r : RegIndex) (v : Byte),
    s.regGet r.toNat = .ok (s.reg r) ∧ s.regSet r.toNat v = .ok (s.setReg r v))

/-! ## The interrupt controller -/

/-- An interrupt that is armed and due, with room for eight bytes, is taken in phase B: the saved
context, the registers, flags and hidden state it leaves, and the step going on with phase C at the
vector (R97, R238, R240, R241). -/
def Obligations.InterruptEntrySavesContext : Prop :=
  ∀ s : State, s.status = .running → s.pc ≤ 255 → s.pollClock.interruptDue → 8 ≤ s.sp.toNat →
    ∃ u, s.pollClock.phaseB = .ok u ∧ step s = u.phaseC ∧
      u.mem.read (s.sp.toNat - 1) = BitVec.ofNat 8 s.pc ∧
      u.mem.read (s.sp.toNat - 2) = s.fl.setWidth 8 ∧
      u.mem.read (s.sp.toNat - 3) = s.reg 0#3 ∧
      u.mem.read (s.sp.toNat - 4) = s.reg 1#3 ∧
      u.mem.read (s.sp.toNat - 5) = s.reg 2#3 ∧
      u.mem.read (s.sp.toNat - 6) = s.reg 3#3 ∧
      u.mem.read (s.sp.toNat - 7) = s.reg 4#3 ∧
      u.mem.read (s.sp.toNat - 8) = s.reg 5#3 ∧
      (∀ a : Nat, a < s.sp.toNat - 8 ∨ s.sp.toNat ≤ a → u.mem.read a = s.mem.read a) ∧
      u.reg 7#3 = s.reg 7#3 - 8#8 ∧ u.reg 6#3 = 0#8 ∧ SameRegsBut [6#3, 7#3] s u ∧
      u.ien = false ∧ u.lt = s.now ∧ u.pc = (u.mem.read 0xF8).toNat ∧ u.fl = s.fl ∧
      u.status = s.status ∧ u.output = s.output ∧ u.pIret = s.pIret

/-- An interrupt entry with fewer than eight bytes below SP faults in phase B, and its instruction
does not run (R228, R238). -/
def Obligations.InterruptEntryNeedsRoom : Prop :=
  ∀ s : State, s.status = .running → s.pc ≤ 255 → s.pollClock.interruptDue → s.sp.toNat < 8 →
    FaultsWith .outOfBoundsAccess s (step s)

/-- No interrupt is taken where the controller is not armed, and then no clock is read; nor where it
is armed and less than one second has passed since the last interrupt (R235, R236, R237). How the
reading of the clock shows in the state is the model's choice (log entries 3 and 4). -/
def Obligations.NoInterruptUnlessDue : Prop :=
  ∀ s : State, s.status = .running → s.pc ≤ 255 →
    (¬ (s.ien = true ∧ (s.reg 5#3).getLsbD 0 = true) → step s = s.phaseC) ∧
    (s.ien = true → (s.reg 5#3).getLsbD 0 = true → s.now - s.lt < (Config.oneSecond : Int) →
      step s = ({ s with clock := s.now, clockReads := s.clockReads + 1 } : State).phaseC)

/-- A value a program writes to R6 has no effect on whether phase B takes an interrupt, nor on the
state or fault an entry ends in (R24). Bits 7 to 1 of IM have none on whether one is taken or faults
(R235): two masks that agree in bit 0 take no interrupt alike, fault alike, and enter alike, to
states that differ only in R5 and in the byte pushed for it (R241). Nor has either an effect on
whether the clock is read before phase B (R236). -/
def Obligations.InterruptIgnoresStatusAndHighMask : Prop :=
  (∀ (s : State) (v : Byte),
    (s.setReg 6#3 v).pollClock = s.pollClock.setReg 6#3 v ∧
    (s.interruptDue → (s.setReg 6#3 v).phaseB = s.phaseB) ∧
    (¬ s.interruptDue → (s.setReg 6#3 v).phaseB = .ok (s.setReg 6#3 v))) ∧
  (∀ (s : State) (v : Byte), v.getLsbD 0 = (s.reg 5#3).getLsbD 0 →
    (s.setReg 5#3 v).pollClock = s.pollClock.setReg 5#3 v ∧
    (¬ s.interruptDue → s.phaseB = .ok s ∧ (s.setReg 5#3 v).phaseB = .ok (s.setReg 5#3 v)) ∧
    (∀ k, (s.setReg 5#3 v).phaseB = .error k ↔ s.phaseB = .error k) ∧
    (∀ t, s.interruptDue → s.phaseB = .ok t → ∃ u, (s.setReg 5#3 v).phaseB = .ok u ∧
      t.ien = false ∧ u.ien = false ∧ t.lt = s.clock ∧ u.lt = s.clock ∧
      u.mem.read (s.sp.toNat - 8) = v ∧
      (∀ a : Nat, a ≠ s.sp.toNat - 8 → u.mem.read a = t.mem.read a) ∧
      u.reg 5#3 = v ∧ SameRegsBut [5#3] t u ∧ u.pc = t.pc ∧ u.fl = t.fl ∧
      u.status = t.status ∧ u.output = t.output))

/-- The vector is read after the pushes: with SP in [0xF9, 0xFF] before the entry the byte pushed to
0xF8 is the one taken (R240). -/
def Obligations.VectorReadAfterPushes : Prop :=
  ∀ s t : State, s.interruptDue → 249 ≤ s.sp.toNat → s.phaseB = .ok t →
    t.pc = ((([BitVec.ofNat 8 s.pc, s.fl.setWidth 8, s.reg 0#3, s.reg 1#3, s.reg 2#3, s.reg 3#3,
      s.reg 4#3, s.reg 5#3] : List Byte).getD (s.sp.toNat - 249) 0#8).toNat)

/-- IRET with its intended contract undoes the interrupt entry it follows: registers, flags, PC and
SP are those before the entry, and IEN is set (R204, R241). -/
def Obligations.IretUndoesEntry : Prop :=
  ∀ s t : State, s.pIret = .intended → s.pc ≤ 255 → s.interruptDue → s.phaseB = .ok t →
    ∃ u, exec .iret t = .next u ∧ SameRegsBut [6#3] s u ∧ u.reg 6#3 = 0#8 ∧ u.fl = s.fl ∧
      u.pc = s.pc ∧ u.ien = true ∧ u.lt = s.clock ∧ SameMem t u ∧ u.status = s.status ∧
      u.output = s.output

/-! ## The instructions -/

/-- NOP (R110): encoding, effect and frame. -/
def Obligations.NopAdvances : Prop :=
  (∀ rest, decode (0x00#8 :: rest) = .ok (.nop, rest)) ∧
  ∀ s : State, ∃ t, exec .nop s = .next t ∧ t.pc = s.pc + 1 ∧
    SameRegsBut [] s t ∧ t.fl = s.fl ∧ SameMem s t ∧ SameControl s t

/-- HLT (R111): encoding, effect and frame; no step follows it. -/
def Obligations.HltHalts : Prop :=
  (∀ rest, decode (0x01#8 :: rest) = .ok (.hlt, rest)) ∧
  ∀ s : State, ∃ t, exec .hlt s = .next t ∧ t.status = .halted ∧ t.pc = s.pc ∧
    SameRegsBut [] s t ∧ t.fl = s.fl ∧ SameMem s t ∧ t.output = s.output ∧ SameHidden s t ∧
    ∀ u, step t ≠ .next u

/-- LDI (R112): encoding, effect, frame and fetch fault. -/
def Obligations.LdiLoadsImmediate : Prop :=
  (∀ a v rest, decode (0x82#8 :: a :: v :: rest) = .ok (.ldi (a.extractLsb' 0 3) v, rest)) ∧
  OperandFetchFaults 0x82#8 3 ∧
  ∀ (s : State) (ra : RegIndex) (imm8 : Byte), ∃ t, exec (.ldi ra imm8) s = .next t ∧
    t.reg ra = imm8 ∧ t.pc = s.pc + 3 ∧
    SameRegsBut [ra] s t ∧ t.fl = s.fl ∧ SameMem s t ∧ SameControl s t

/-- PRN (R113): encoding, effect, frame and fetch fault. -/
def Obligations.PrnEmitsDecimal : Prop :=
  (∀ a rest, decode (0x47#8 :: a :: rest) = .ok (.prn (a.extractLsb' 0 3), rest)) ∧
  OperandFetchFaults 0x47#8 2 ∧
  ∀ (s : State) (ra : RegIndex), ∃ t, exec (.prn ra) s = .next t ∧
    t.output = s.output ++ [⟨.decimal, s.reg ra⟩] ∧ t.pc = s.pc + 2 ∧
    SameRegsBut [] s t ∧ t.fl = s.fl ∧ SameMem s t ∧ t.status = s.status ∧ SameHidden s t

/-- PRA (R114): encoding, effect, frame and fetch fault. -/
def Obligations.PraEmitsChar : Prop :=
  (∀ a rest, decode (0x48#8 :: a :: rest) = .ok (.pra (a.extractLsb' 0 3), rest)) ∧
  OperandFetchFaults 0x48#8 2 ∧
  ∀ (s : State) (ra : RegIndex), ∃ t, exec (.pra ra) s = .next t ∧
    t.output = s.output ++ [⟨.char, s.reg ra⟩] ∧ t.pc = s.pc + 2 ∧
    SameRegsBut [] s t ∧ t.fl = s.fl ∧ SameMem s t ∧ t.status = s.status ∧ SameHidden s t

/-- The ALU's four operations (R131 to R134). -/
def Obligations.AluResults : Prop :=
  ∀ a b : Byte,
    (∃ r, aluResult .add a b = some r ∧ aluDz .add b = false ∧
      r.toNat = (a.toNat + b.toNat) % 256) ∧
    (∃ r, aluResult .subtract a b = some r ∧ aluDz .subtract b = false ∧
      (r.toNat : Int) = ((a.toNat : Int) - (b.toNat : Int)) % 256) ∧
    (∃ r, aluResult .multiply a b = some r ∧ aluDz .multiply b = false ∧
      r.toNat = (a.toNat * b.toNat) % 256) ∧
    (b = 0#8 → aluResult .divide a b = none ∧ aluDz .divide b = true) ∧
    (b ≠ 0#8 → ∃ r, aluResult .divide a b = some r ∧ aluDz .divide b = false ∧
      r.toNat = a.toNat / b.toNat)

/-- ADD (R140): encoding, effect, frame and fetch fault; both operands are read first (R136). -/
def Obligations.AddWrapsModulo256 : Prop :=
  (∀ a b rest, decode (0xA0#8 :: a :: b :: rest) =
    .ok (.add (a.extractLsb' 0 3) (b.extractLsb' 0 3), rest)) ∧
  OperandFetchFaults 0xA0#8 3 ∧
  ∀ (s : State) (ra rb : RegIndex), ∃ t, exec (.add ra rb) s = .next t ∧
    (t.reg ra).toNat = ((s.reg ra).toNat + (s.reg rb).toNat) % 256 ∧ t.pc = s.pc + 3 ∧
    SameRegsBut [ra] s t ∧ t.fl = s.fl ∧ SameMem s t ∧ SameControl s t

/-- MUL (R141): encoding, effect, frame and fetch fault; both operands are read first (R136). -/
def Obligations.MulKeepsLowByte : Prop :=
  (∀ a b rest, decode (0xA2#8 :: a :: b :: rest) =
    .ok (.mul (a.extractLsb' 0 3) (b.extractLsb' 0 3), rest)) ∧
  OperandFetchFaults 0xA2#8 3 ∧
  ∀ (s : State) (ra rb : RegIndex), ∃ t, exec (.mul ra rb) s = .next t ∧
    (t.reg ra).toNat = ((s.reg ra).toNat * (s.reg rb).toNat) % 256 ∧ t.pc = s.pc + 3 ∧
    SameRegsBut [ra] s t ∧ t.fl = s.fl ∧ SameMem s t ∧ SameControl s t

/-- DIV (R142): encoding, effect, frame, fetch fault and DivisionByZero. -/
def Obligations.DivFloorsOrFaults : Prop :=
  (∀ a b rest, decode (0xA3#8 :: a :: b :: rest) =
    .ok (.div (a.extractLsb' 0 3) (b.extractLsb' 0 3), rest)) ∧
  OperandFetchFaults 0xA3#8 3 ∧
  (∀ (s : State) (ra rb : RegIndex), s.reg rb ≠ 0#8 → ∃ t, exec (.div ra rb) s = .next t ∧
    (t.reg ra).toNat = (s.reg ra).toNat / (s.reg rb).toNat ∧ t.pc = s.pc + 3 ∧
    SameRegsBut [ra] s t ∧ t.fl = s.fl ∧ SameMem s t ∧ SameControl s t) ∧
  (∀ (s : State) (ra rb : RegIndex), s.reg rb = 0#8 →
    FaultsWith .divisionByZero s (exec (.div ra rb) s))

/-- COMP (R143): encoding, effect, frame and fetch fault; the comparison is unsigned. -/
def Obligations.CompSetsOneFlag : Prop :=
  (∀ a b rest, decode (0xA7#8 :: a :: b :: rest) =
    .ok (.comp (a.extractLsb' 0 3) (b.extractLsb' 0 3), rest)) ∧
  OperandFetchFaults 0xA7#8 3 ∧
  ∀ (s : State) (ra rb : RegIndex), ∃ t, exec (.comp ra rb) s = .next t ∧
    ((s.reg ra).toNat = (s.reg rb).toNat → t.fl = 0b001#3) ∧
    ((s.reg rb).toNat < (s.reg ra).toNat → t.fl = 0b010#3) ∧
    ((s.reg ra).toNat < (s.reg rb).toNat → t.fl = 0b100#3) ∧
    t.pc = s.pc + 3 ∧ SameRegsBut [] s t ∧ SameMem s t ∧ SameControl s t

/-- PUSH (R162): encoding, effect, frame and faults; PUSH R7 stores the decremented SP. -/
def Obligations.PushStoresBelow : Prop :=
  (∀ a rest, decode (0x45#8 :: a :: rest) = .ok (.push (a.extractLsb' 0 3), rest)) ∧
  OperandFetchFaults 0x45#8 2 ∧
  (∀ (s : State) (ra : RegIndex), s.sp ≠ 0#8 → ∃ t, exec (.push ra) s = .next t ∧
    t.sp = s.sp - 1#8 ∧
    t.mem.read (s.sp - 1#8).toNat = (if ra = 7#3 then s.sp - 1#8 else s.reg ra) ∧
    SameMemBut (s.sp - 1#8) s t ∧ t.pc = s.pc + 2 ∧
    SameRegsBut [7#3] s t ∧ t.fl = s.fl ∧ SameControl s t) ∧
  (∀ (s : State) (ra : RegIndex), s.sp = 0#8 →
    FaultsWith .outOfBoundsAccess s (exec (.push ra) s))

/-- POP (R163): encoding, effect, frame and faults; POP R7 increments the byte it popped. -/
def Obligations.PopLoadsTop : Prop :=
  (∀ a rest, decode (0x46#8 :: a :: rest) = .ok (.pop (a.extractLsb' 0 3), rest)) ∧
  OperandFetchFaults 0x46#8 2 ∧
  (∀ (s : State) (ra : RegIndex), ra ≠ 7#3 → s.sp ≠ 255#8 → ∃ t, exec (.pop ra) s = .next t ∧
    t.reg ra = s.mem.read s.sp.toNat ∧ t.sp = s.sp + 1#8 ∧ t.pc = s.pc + 2 ∧
    SameRegsBut [ra, 7#3] s t ∧ t.fl = s.fl ∧ SameMem s t ∧ SameControl s t) ∧
  (∀ (s : State) (ra : RegIndex), ra ≠ 7#3 → s.sp = 255#8 →
    FaultsWith .outOfBoundsAccess s (exec (.pop ra) s)) ∧
  (∀ s : State, s.mem.read s.sp.toNat ≠ 255#8 → ∃ t, exec (.pop 7#3) s = .next t ∧
    t.sp = s.mem.read s.sp.toNat + 1#8 ∧ t.pc = s.pc + 2 ∧
    SameRegsBut [7#3] s t ∧ t.fl = s.fl ∧ SameMem s t ∧ SameControl s t) ∧
  (∀ s : State, s.mem.read s.sp.toNat = 255#8 →
    FaultsWith .outOfBoundsAccess s (exec (.pop 7#3) s))

/-- CALL (R164): encoding, effect, frame and faults; CALL R7 jumps to the decremented SP. -/
def Obligations.CallPushesReturn : Prop :=
  (∀ a rest, decode (0x50#8 :: a :: rest) = .ok (.call (a.extractLsb' 0 3), rest)) ∧
  OperandFetchFaults 0x50#8 2 ∧
  (∀ (s : State) (ra : RegIndex), s.pc + 2 ≤ 255 → s.sp ≠ 0#8 →
    ∃ t, exec (.call ra) s = .next t ∧
    t.sp = s.sp - 1#8 ∧ (t.mem.read (s.sp - 1#8).toNat).toNat = s.pc + 2 ∧
    SameMemBut (s.sp - 1#8) s t ∧
    t.pc = (if ra = 7#3 then s.sp - 1#8 else s.reg ra).toNat ∧
    SameRegsBut [7#3] s t ∧ t.fl = s.fl ∧ SameControl s t) ∧
  (∀ (s : State) (ra : RegIndex), 255 < s.pc + 2 →
    FaultsWith .outOfBoundsAccess s (exec (.call ra) s)) ∧
  (∀ (s : State) (ra : RegIndex), s.sp = 0#8 →
    FaultsWith .outOfBoundsAccess s (exec (.call ra) s))

/-- RET (R165): encoding, effect, frame and fault; the popped cell is cleared. -/
def Obligations.RetPopsAndClears : Prop :=
  (∀ rest, decode (0x11#8 :: rest) = .ok (.ret, rest)) ∧
  (∀ s : State, s.sp ≠ 255#8 → ∃ t, exec .ret s = .next t ∧
    t.pc = (s.mem.read s.sp.toNat).toNat ∧ t.mem.read s.sp.toNat = 0#8 ∧
    SameMemBut s.sp s t ∧ t.sp = s.sp + 1#8 ∧
    SameRegsBut [7#3] s t ∧ t.fl = s.fl ∧ SameControl s t) ∧
  (∀ s : State, s.sp = 255#8 → FaultsWith .outOfBoundsAccess s (exec .ret s))

/-- JMP (R166): encoding, effect, frame and fetch fault. -/
def Obligations.JmpJumps : Prop :=
  (∀ a rest, decode (0x54#8 :: a :: rest) = .ok (.jmp (a.extractLsb' 0 3), rest)) ∧
  OperandFetchFaults 0x54#8 2 ∧
  ∀ (s : State) (ra : RegIndex), ∃ t, exec (.jmp ra) s = .next t ∧ t.pc = (s.reg ra).toNat ∧
    SameRegsBut [] s t ∧ t.fl = s.fl ∧ SameMem s t ∧ SameControl s t

/-- JEQ (R167): encoding, effect, frame and fetch fault; only FL.E is read. -/
def Obligations.JeqJumpsOnEqual : Prop :=
  (∀ a rest, decode (0x55#8 :: a :: rest) = .ok (.jeq (a.extractLsb' 0 3), rest)) ∧
  OperandFetchFaults 0x55#8 2 ∧
  ∀ (s : State) (ra : RegIndex), ∃ t, exec (.jeq ra) s = .next t ∧
    (s.fl.getLsbD 0 = true → t.pc = (s.reg ra).toNat) ∧
    (s.fl.getLsbD 0 = false → t.pc = s.pc + 2) ∧
    SameRegsBut [] s t ∧ t.fl = s.fl ∧ SameMem s t ∧ SameControl s t

/-- JNE (R168): encoding, effect, frame and fetch fault; only FL.E is read. -/
def Obligations.JneJumpsOnNotEqual : Prop :=
  (∀ a rest, decode (0x56#8 :: a :: rest) = .ok (.jne (a.extractLsb' 0 3), rest)) ∧
  OperandFetchFaults 0x56#8 2 ∧
  ∀ (s : State) (ra : RegIndex), ∃ t, exec (.jne ra) s = .next t ∧
    (s.fl.getLsbD 0 = false → t.pc = (s.reg ra).toNat) ∧
    (s.fl.getLsbD 0 = true → t.pc = s.pc + 2) ∧
    SameRegsBut [] s t ∧ t.fl = s.fl ∧ SameMem s t ∧ SameControl s t

/-- ST (R190): encoding, effect, frame and fetch fault; the next fetch of the stored byte sees it
(R73). -/
def Obligations.StStores : Prop :=
  (∀ a b rest, decode (0x84#8 :: a :: b :: rest) =
    .ok (.st (a.extractLsb' 0 3) (b.extractLsb' 0 3), rest)) ∧
  OperandFetchFaults 0x84#8 3 ∧
  ∀ (s : State) (ra rb : RegIndex), ∃ t, exec (.st ra rb) s = .next t ∧
    s.storeAddress ra = s.reg ra ∧
    t.mem.read (s.storeAddress ra).toNat = s.reg rb ∧ SameMemBut (s.storeAddress ra) s t ∧
    t.fetchBytes (s.storeAddress ra).toNat 1 = [s.reg rb] ∧
    t.pc = s.pc + 3 ∧ SameRegsBut [] s t ∧ t.fl = s.fl ∧ SameControl s t

/-- INC, INTE and, when P_IRET is noop, IRET change nothing, PC included (R200 to R203), so a step
at one of them that takes no interrupt leaves the state it ran from. -/
def Obligations.ReservedDoNothing : Prop :=
  (∀ rest, decode (0x65#8 :: rest) = .ok (.inc, rest)) ∧
  (∀ rest, decode (0x52#8 :: rest) = .ok (.inte, rest)) ∧
  (∀ rest, decode (0x13#8 :: rest) = .ok (.iret, rest)) ∧
  (∀ s : State, exec .inc s = .next s ∧ exec .inte s = .next s) ∧
  (∀ s : State, s.pIret = .noop → exec .iret s = .next s) ∧
  (∀ s : State, s.pc ≤ 255 → s.mem.read s.pc = 0x65#8 ∨ s.mem.read s.pc = 0x52#8 →
    s.phaseC = .next s) ∧
  (∀ s : State, s.pc ≤ 255 → s.mem.read s.pc = 0x13#8 → s.pIret = .noop → s.phaseC = .next s)

/-- IRET with its intended contract (R204): the pops, IEN set, frame and fault. -/
def Obligations.IretPopsContext : Prop :=
  (∀ s : State, s.pIret = .intended → s.sp.toNat ≤ 247 → ∃ t, exec .iret s = .next t ∧
    t.reg 5#3 = s.mem.read s.sp.toNat ∧ t.reg 4#3 = s.mem.read (s.sp.toNat + 1) ∧
    t.reg 3#3 = s.mem.read (s.sp.toNat + 2) ∧ t.reg 2#3 = s.mem.read (s.sp.toNat + 3) ∧
    t.reg 1#3 = s.mem.read (s.sp.toNat + 4) ∧ t.reg 0#3 = s.mem.read (s.sp.toNat + 5) ∧
    t.fl = (s.mem.read (s.sp.toNat + 6)).extractLsb' 0 3 ∧
    t.pc = (s.mem.read (s.sp.toNat + 7)).toNat ∧ t.ien = true ∧ t.sp = s.sp + 8#8 ∧
    t.reg 6#3 = s.reg 6#3 ∧ SameMem s t ∧ t.lt = s.lt ∧ t.status = s.status ∧
    t.output = s.output ∧ t.pIret = s.pIret ∧ t.clock = s.clock ∧ t.clockReads = s.clockReads) ∧
  (∀ s : State, s.pIret = .intended → 247 < s.sp.toNat →
    FaultsWith .outOfBoundsAccess s (exec .iret s))

/-- PUSH then POP on the same register gives back its value and SP (a testable property of the
source). -/
def Obligations.PushPopRoundTrip : Prop :=
  ∀ (s : State) (ra : RegIndex), ra ≠ 7#3 → s.sp ≠ 0#8 →
    ∃ t u, exec (.push ra) s = .next t ∧ exec (.pop ra) t = .next u ∧
      SameRegsBut [] s u ∧ u.pc = s.pc + 4 ∧ SameMemBut (s.sp - 1#8) s u

/-- A CALL followed eventually by RET, with SP back and the return address still in its cell,
returns to the instruction after the CALL (a testable property of the source). -/
def Obligations.CallThenRetReturns : Prop :=
  ∀ (s t u : State) (ra : RegIndex), s.pc + 2 ≤ 255 → s.sp ≠ 0#8 → exec (.call ra) s = .next t →
    u.sp = t.sp → u.mem.read t.sp.toNat = t.mem.read t.sp.toNat →
    ∃ v, exec .ret u = .next v ∧ v.pc = s.pc + 2 ∧ v.sp = s.sp
end

