-- ==== Sys2Proof/Laws/Decode.lean ====
section
/-! SUPPORT. The laws of the opcode table and of operand bytes. -/

namespace Sys2Proof

/-- No two rows of the opcode table share an opcode (R87). -/
theorem opcodeTable_nodup : (opcodeTable.map Prod.fst).Nodup := by decide

/-- A register operand byte as the assembler writes it selects its register (R83, R92). -/
@[simp] theorem regOperand_encodeReg (r : RegIndex) : regOperand (encodeReg r) = r := by
  revert r; decide

/-- The assembler's byte of a register is well formed (R92). -/
@[simp] theorem registerByteOk_encodeReg (r : RegIndex) : registerByteOk (encodeReg r) = true := by
  revert r; decide

/-- A well-formed register operand byte is the assembler's byte of the register it selects. -/
theorem encodeReg_regOperand (b : Byte) (h : registerByteOk b = true) :
    encodeReg (regOperand b) = b := by
  revert b; decide

/-- A byte found in the opcode table is one of its 20 rows (R82, R87). -/
theorem mem_of_opcodeShape (op : Byte) (sh : Shape) (h : opcodeShape op = some sh) :
    (op, sh) ∈ opcodeTable := by
  unfold opcodeShape at h
  generalize opcodeTable = l at h
  induction l with
  | nil => simp at h
  | cons x l ih =>
    obtain ⟨o, sh'⟩ := x
    by_cases e : op = o
    · subst e
      simp at h
      simp [h]
    · have hf : (op == o) = false := by simpa using e
      simp only [List.lookup, hf] at h
      exact List.mem_cons_of_mem _ (ih h)

/-- A byte not found is no opcode of the table (R90). -/
theorem not_mem_of_opcodeShape (op : Byte) (h : opcodeShape op = none) :
    op ∉ opcodeTable.map Prod.fst := by
  unfold opcodeShape at h
  generalize opcodeTable = l at h
  induction l with
  | nil => simp
  | cons x l ih =>
    obtain ⟨o, sh'⟩ := x
    by_cases e : op = o
    · subst e
      simp at h
    · have hf : (op == o) = false := by simpa using e
      simp only [List.lookup, hf] at h
      simp [e]
      simpa using ih h

/-! ### The table's rows (R87) -/

@[simp] theorem opcodeShape_nop : opcodeShape 0x00#8 = some (.n .nop) := rfl
@[simp] theorem opcodeShape_hlt : opcodeShape 0x01#8 = some (.n .hlt) := rfl
@[simp] theorem opcodeShape_ldi : opcodeShape 0x82#8 = some (.ri .ldi) := rfl
@[simp] theorem opcodeShape_prn : opcodeShape 0x47#8 = some (.r .prn) := rfl
@[simp] theorem opcodeShape_pra : opcodeShape 0x48#8 = some (.r .pra) := rfl
@[simp] theorem opcodeShape_add : opcodeShape 0xA0#8 = some (.rr .add) := rfl
@[simp] theorem opcodeShape_mul : opcodeShape 0xA2#8 = some (.rr .mul) := rfl
@[simp] theorem opcodeShape_div : opcodeShape 0xA3#8 = some (.rr .div) := rfl
@[simp] theorem opcodeShape_comp : opcodeShape 0xA7#8 = some (.rr .comp) := rfl
@[simp] theorem opcodeShape_push : opcodeShape 0x45#8 = some (.r .push) := rfl
@[simp] theorem opcodeShape_pop : opcodeShape 0x46#8 = some (.r .pop) := rfl
@[simp] theorem opcodeShape_call : opcodeShape 0x50#8 = some (.r .call) := rfl
@[simp] theorem opcodeShape_ret : opcodeShape 0x11#8 = some (.n .ret) := rfl
@[simp] theorem opcodeShape_jmp : opcodeShape 0x54#8 = some (.r .jmp) := rfl
@[simp] theorem opcodeShape_jeq : opcodeShape 0x55#8 = some (.r .jeq) := rfl
@[simp] theorem opcodeShape_jne : opcodeShape 0x56#8 = some (.r .jne) := rfl
@[simp] theorem opcodeShape_st : opcodeShape 0x84#8 = some (.rr .st) := rfl
@[simp] theorem opcodeShape_inc : opcodeShape 0x65#8 = some (.n .inc) := rfl
@[simp] theorem opcodeShape_inte : opcodeShape 0x52#8 = some (.n .inte) := rfl
@[simp] theorem opcodeShape_iret : opcodeShape 0x13#8 = some (.n .iret) := rfl

/-- Each instruction's opcode has a row, and the row makes the instruction of its operand bytes. -/
theorem opcodeShape_opcode (i : Instr) : ∃ sh, opcodeShape i.opcode = some sh := by
  cases i <;> exact ⟨_, rfl⟩

end Sys2Proof
end

