-- ==== Sys2Proof/Laws/State.lean ====
section
/-! SUPPORT. One lemma per field per update of State, and the laws of registers and bytes. -/

namespace Sys2Proof.Machine

variable (s : State)

/-! ### setReg -/

@[simp] theorem State.setReg_mem (r : RegIndex) (v : Byte) : (s.setReg r v).mem = s.mem := rfl
@[simp] theorem State.setReg_regs (r : RegIndex) (v : Byte) : (s.setReg r v).regs = s.regs.set r.toNat v r.isLt := rfl
@[simp] theorem State.setReg_pc (r : RegIndex) (v : Byte) : (s.setReg r v).pc = s.pc := rfl
@[simp] theorem State.setReg_fl (r : RegIndex) (v : Byte) : (s.setReg r v).fl = s.fl := rfl
@[simp] theorem State.setReg_ien (r : RegIndex) (v : Byte) : (s.setReg r v).ien = s.ien := rfl
@[simp] theorem State.setReg_lt (r : RegIndex) (v : Byte) : (s.setReg r v).lt = s.lt := rfl
@[simp] theorem State.setReg_status (r : RegIndex) (v : Byte) : (s.setReg r v).status = s.status := rfl
@[simp] theorem State.setReg_output (r : RegIndex) (v : Byte) : (s.setReg r v).output = s.output := rfl
@[simp] theorem State.setReg_pIret (r : RegIndex) (v : Byte) : (s.setReg r v).pIret = s.pIret := rfl
@[simp] theorem State.setReg_clock (r : RegIndex) (v : Byte) : (s.setReg r v).clock = s.clock := rfl
@[simp] theorem State.setReg_clockReads (r : RegIndex) (v : Byte) : (s.setReg r v).clockReads = s.clockReads := rfl
@[simp] theorem State.setReg_loadByte (r : RegIndex) (v : Byte) (x : Byte) : (s.setReg r v).loadByte x = s.loadByte x := rfl

/-! ### storeByte -/

@[simp] theorem State.storeByte_mem (a v : Byte) : (s.storeByte a v).mem = s.mem.write a.toNat v := rfl
@[simp] theorem State.storeByte_regs (a v : Byte) : (s.storeByte a v).regs = s.regs := rfl
@[simp] theorem State.storeByte_pc (a v : Byte) : (s.storeByte a v).pc = s.pc := rfl
@[simp] theorem State.storeByte_fl (a v : Byte) : (s.storeByte a v).fl = s.fl := rfl
@[simp] theorem State.storeByte_ien (a v : Byte) : (s.storeByte a v).ien = s.ien := rfl
@[simp] theorem State.storeByte_lt (a v : Byte) : (s.storeByte a v).lt = s.lt := rfl
@[simp] theorem State.storeByte_status (a v : Byte) : (s.storeByte a v).status = s.status := rfl
@[simp] theorem State.storeByte_output (a v : Byte) : (s.storeByte a v).output = s.output := rfl
@[simp] theorem State.storeByte_pIret (a v : Byte) : (s.storeByte a v).pIret = s.pIret := rfl
@[simp] theorem State.storeByte_clock (a v : Byte) : (s.storeByte a v).clock = s.clock := rfl
@[simp] theorem State.storeByte_clockReads (a v : Byte) : (s.storeByte a v).clockReads = s.clockReads := rfl
@[simp] theorem State.storeByte_reg (a v : Byte) (q : RegIndex) : (s.storeByte a v).reg q = s.reg q := rfl

/-! ### setPc -/

@[simp] theorem State.setPc_mem (a : Nat) : (s.setPc a).mem = s.mem := rfl
@[simp] theorem State.setPc_regs (a : Nat) : (s.setPc a).regs = s.regs := rfl
@[simp] theorem State.setPc_pc (a : Nat) : (s.setPc a).pc = a := rfl
@[simp] theorem State.setPc_fl (a : Nat) : (s.setPc a).fl = s.fl := rfl
@[simp] theorem State.setPc_ien (a : Nat) : (s.setPc a).ien = s.ien := rfl
@[simp] theorem State.setPc_lt (a : Nat) : (s.setPc a).lt = s.lt := rfl
@[simp] theorem State.setPc_status (a : Nat) : (s.setPc a).status = s.status := rfl
@[simp] theorem State.setPc_output (a : Nat) : (s.setPc a).output = s.output := rfl
@[simp] theorem State.setPc_pIret (a : Nat) : (s.setPc a).pIret = s.pIret := rfl
@[simp] theorem State.setPc_clock (a : Nat) : (s.setPc a).clock = s.clock := rfl
@[simp] theorem State.setPc_clockReads (a : Nat) : (s.setPc a).clockReads = s.clockReads := rfl
@[simp] theorem State.setPc_reg (a : Nat) (q : RegIndex) : (s.setPc a).reg q = s.reg q := rfl
@[simp] theorem State.setPc_loadByte (a : Nat) (x : Byte) : (s.setPc a).loadByte x = s.loadByte x := rfl

/-! ### advance -/

@[simp] theorem State.advance_mem (n : Nat) : (s.advance n).mem = s.mem := rfl
@[simp] theorem State.advance_regs (n : Nat) : (s.advance n).regs = s.regs := rfl
@[simp] theorem State.advance_pc (n : Nat) : (s.advance n).pc = s.pc + n := rfl
@[simp] theorem State.advance_fl (n : Nat) : (s.advance n).fl = s.fl := rfl
@[simp] theorem State.advance_ien (n : Nat) : (s.advance n).ien = s.ien := rfl
@[simp] theorem State.advance_lt (n : Nat) : (s.advance n).lt = s.lt := rfl
@[simp] theorem State.advance_status (n : Nat) : (s.advance n).status = s.status := rfl
@[simp] theorem State.advance_output (n : Nat) : (s.advance n).output = s.output := rfl
@[simp] theorem State.advance_pIret (n : Nat) : (s.advance n).pIret = s.pIret := rfl
@[simp] theorem State.advance_clock (n : Nat) : (s.advance n).clock = s.clock := rfl
@[simp] theorem State.advance_clockReads (n : Nat) : (s.advance n).clockReads = s.clockReads := rfl
@[simp] theorem State.advance_reg (n : Nat) (q : RegIndex) : (s.advance n).reg q = s.reg q := rfl
@[simp] theorem State.advance_loadByte (n : Nat) (x : Byte) : (s.advance n).loadByte x = s.loadByte x := rfl

/-! ### emit -/

@[simp] theorem State.emit_mem (k : EmitKind) (v : Byte) : (s.emit k v).mem = s.mem := rfl
@[simp] theorem State.emit_regs (k : EmitKind) (v : Byte) : (s.emit k v).regs = s.regs := rfl
@[simp] theorem State.emit_pc (k : EmitKind) (v : Byte) : (s.emit k v).pc = s.pc := rfl
@[simp] theorem State.emit_fl (k : EmitKind) (v : Byte) : (s.emit k v).fl = s.fl := rfl
@[simp] theorem State.emit_ien (k : EmitKind) (v : Byte) : (s.emit k v).ien = s.ien := rfl
@[simp] theorem State.emit_lt (k : EmitKind) (v : Byte) : (s.emit k v).lt = s.lt := rfl
@[simp] theorem State.emit_status (k : EmitKind) (v : Byte) : (s.emit k v).status = s.status := rfl
@[simp] theorem State.emit_output (k : EmitKind) (v : Byte) : (s.emit k v).output = s.output ++ [⟨k, v⟩] := rfl
@[simp] theorem State.emit_pIret (k : EmitKind) (v : Byte) : (s.emit k v).pIret = s.pIret := rfl
@[simp] theorem State.emit_clock (k : EmitKind) (v : Byte) : (s.emit k v).clock = s.clock := rfl
@[simp] theorem State.emit_clockReads (k : EmitKind) (v : Byte) : (s.emit k v).clockReads = s.clockReads := rfl
@[simp] theorem State.emit_reg (k : EmitKind) (v : Byte) (q : RegIndex) : (s.emit k v).reg q = s.reg q := rfl
@[simp] theorem State.emit_loadByte (k : EmitKind) (v : Byte) (x : Byte) : (s.emit k v).loadByte x = s.loadByte x := rfl

/-! ### halt -/

@[simp] theorem State.halt_mem : (s.halt).mem = s.mem := rfl
@[simp] theorem State.halt_regs : (s.halt).regs = s.regs := rfl
@[simp] theorem State.halt_pc : (s.halt).pc = s.pc := rfl
@[simp] theorem State.halt_fl : (s.halt).fl = s.fl := rfl
@[simp] theorem State.halt_ien : (s.halt).ien = s.ien := rfl
@[simp] theorem State.halt_lt : (s.halt).lt = s.lt := rfl
@[simp] theorem State.halt_status : (s.halt).status = .halted := rfl
@[simp] theorem State.halt_output : (s.halt).output = s.output := rfl
@[simp] theorem State.halt_pIret : (s.halt).pIret = s.pIret := rfl
@[simp] theorem State.halt_clock : (s.halt).clock = s.clock := rfl
@[simp] theorem State.halt_clockReads : (s.halt).clockReads = s.clockReads := rfl
@[simp] theorem State.halt_reg (q : RegIndex) : (s.halt).reg q = s.reg q := rfl
@[simp] theorem State.halt_loadByte (x : Byte) : (s.halt).loadByte x = s.loadByte x := rfl

/-! ### setIen -/

@[simp] theorem State.setIen_mem (b : Bool) : (s.setIen b).mem = s.mem := rfl
@[simp] theorem State.setIen_regs (b : Bool) : (s.setIen b).regs = s.regs := rfl
@[simp] theorem State.setIen_pc (b : Bool) : (s.setIen b).pc = s.pc := rfl
@[simp] theorem State.setIen_fl (b : Bool) : (s.setIen b).fl = s.fl := rfl
@[simp] theorem State.setIen_ien (b : Bool) : (s.setIen b).ien = b := rfl
@[simp] theorem State.setIen_lt (b : Bool) : (s.setIen b).lt = s.lt := rfl
@[simp] theorem State.setIen_status (b : Bool) : (s.setIen b).status = s.status := rfl
@[simp] theorem State.setIen_output (b : Bool) : (s.setIen b).output = s.output := rfl
@[simp] theorem State.setIen_pIret (b : Bool) : (s.setIen b).pIret = s.pIret := rfl
@[simp] theorem State.setIen_clock (b : Bool) : (s.setIen b).clock = s.clock := rfl
@[simp] theorem State.setIen_clockReads (b : Bool) : (s.setIen b).clockReads = s.clockReads := rfl
@[simp] theorem State.setIen_reg (b : Bool) (q : RegIndex) : (s.setIen b).reg q = s.reg q := rfl
@[simp] theorem State.setIen_loadByte (b : Bool) (x : Byte) : (s.setIen b).loadByte x = s.loadByte x := rfl

/-! ### setLt -/

@[simp] theorem State.setLt_mem (x : Int) : (s.setLt x).mem = s.mem := rfl
@[simp] theorem State.setLt_regs (x : Int) : (s.setLt x).regs = s.regs := rfl
@[simp] theorem State.setLt_pc (x : Int) : (s.setLt x).pc = s.pc := rfl
@[simp] theorem State.setLt_fl (x : Int) : (s.setLt x).fl = s.fl := rfl
@[simp] theorem State.setLt_ien (x : Int) : (s.setLt x).ien = s.ien := rfl
@[simp] theorem State.setLt_lt (x : Int) : (s.setLt x).lt = x := rfl
@[simp] theorem State.setLt_status (x : Int) : (s.setLt x).status = s.status := rfl
@[simp] theorem State.setLt_output (x : Int) : (s.setLt x).output = s.output := rfl
@[simp] theorem State.setLt_pIret (x : Int) : (s.setLt x).pIret = s.pIret := rfl
@[simp] theorem State.setLt_clock (x : Int) : (s.setLt x).clock = s.clock := rfl
@[simp] theorem State.setLt_clockReads (x : Int) : (s.setLt x).clockReads = s.clockReads := rfl
@[simp] theorem State.setLt_reg (x : Int) (q : RegIndex) : (s.setLt x).reg q = s.reg q := rfl
@[simp] theorem State.setLt_loadByte (x : Int) (y : Byte) : (s.setLt x).loadByte y = s.loadByte y := rfl

/-! ### setFl -/

@[simp] theorem State.setFl_mem (f : FlagBits) : (s.setFl f).mem = s.mem := rfl
@[simp] theorem State.setFl_regs (f : FlagBits) : (s.setFl f).regs = s.regs := rfl
@[simp] theorem State.setFl_pc (f : FlagBits) : (s.setFl f).pc = s.pc := rfl
@[simp] theorem State.setFl_fl (f : FlagBits) : (s.setFl f).fl = f := rfl
@[simp] theorem State.setFl_ien (f : FlagBits) : (s.setFl f).ien = s.ien := rfl
@[simp] theorem State.setFl_lt (f : FlagBits) : (s.setFl f).lt = s.lt := rfl
@[simp] theorem State.setFl_status (f : FlagBits) : (s.setFl f).status = s.status := rfl
@[simp] theorem State.setFl_output (f : FlagBits) : (s.setFl f).output = s.output := rfl
@[simp] theorem State.setFl_pIret (f : FlagBits) : (s.setFl f).pIret = s.pIret := rfl
@[simp] theorem State.setFl_clock (f : FlagBits) : (s.setFl f).clock = s.clock := rfl
@[simp] theorem State.setFl_clockReads (f : FlagBits) : (s.setFl f).clockReads = s.clockReads := rfl
@[simp] theorem State.setFl_reg (f : FlagBits) (q : RegIndex) : (s.setFl f).reg q = s.reg q := rfl
@[simp] theorem State.setFl_loadByte (f : FlagBits) (x : Byte) : (s.setFl f).loadByte x = s.loadByte x := rfl

/-! ### raise -/

@[simp] theorem State.raise_mem (k : FaultKind) : (s.raise k).mem = s.mem := rfl
@[simp] theorem State.raise_regs (k : FaultKind) : (s.raise k).regs = s.regs := rfl
@[simp] theorem State.raise_pc (k : FaultKind) : (s.raise k).pc = s.pc := rfl
@[simp] theorem State.raise_fl (k : FaultKind) : (s.raise k).fl = s.fl := rfl
@[simp] theorem State.raise_ien (k : FaultKind) : (s.raise k).ien = s.ien := rfl
@[simp] theorem State.raise_lt (k : FaultKind) : (s.raise k).lt = s.lt := rfl
@[simp] theorem State.raise_status (k : FaultKind) : (s.raise k).status = .faulted k := rfl
@[simp] theorem State.raise_output (k : FaultKind) : (s.raise k).output = s.output := rfl
@[simp] theorem State.raise_pIret (k : FaultKind) : (s.raise k).pIret = s.pIret := rfl
@[simp] theorem State.raise_clock (k : FaultKind) : (s.raise k).clock = s.clock := rfl
@[simp] theorem State.raise_clockReads (k : FaultKind) : (s.raise k).clockReads = s.clockReads := rfl
@[simp] theorem State.raise_reg (k : FaultKind) (q : RegIndex) : (s.raise k).reg q = s.reg q := rfl
@[simp] theorem State.raise_loadByte (k : FaultKind) (x : Byte) : (s.raise k).loadByte x = s.loadByte x := rfl

/-! ### pollClock -/

@[simp] theorem State.pollClock_mem : s.pollClock.mem = s.mem := by unfold State.pollClock; split <;> rfl
@[simp] theorem State.pollClock_regs : s.pollClock.regs = s.regs := by unfold State.pollClock; split <;> rfl
@[simp] theorem State.pollClock_pc : s.pollClock.pc = s.pc := by unfold State.pollClock; split <;> rfl
@[simp] theorem State.pollClock_fl : s.pollClock.fl = s.fl := by unfold State.pollClock; split <;> rfl
@[simp] theorem State.pollClock_ien : s.pollClock.ien = s.ien := by unfold State.pollClock; split <;> rfl
@[simp] theorem State.pollClock_lt : s.pollClock.lt = s.lt := by unfold State.pollClock; split <;> rfl
@[simp] theorem State.pollClock_status : s.pollClock.status = s.status := by unfold State.pollClock; split <;> rfl
@[simp] theorem State.pollClock_output : s.pollClock.output = s.output := by unfold State.pollClock; split <;> rfl
@[simp] theorem State.pollClock_pIret : s.pollClock.pIret = s.pIret := by unfold State.pollClock; split <;> rfl
@[simp] theorem State.pollClock_reg (q : RegIndex) : s.pollClock.reg q = s.reg q := by
  unfold State.pollClock; split <;> rfl
@[simp] theorem State.pollClock_loadByte (x : Byte) : s.pollClock.loadByte x = s.loadByte x := by
  unfold State.pollClock; split <;> rfl
@[simp] theorem State.pollClock_armed : s.pollClock.armed = s.armed := by
  unfold State.armed State.im; simp

/-- An unarmed controller reads no clock (R236). -/
theorem State.pollClock_of_not_armed (h : s.armed = false) : s.pollClock = s := by
  simp [State.pollClock, h]

/-- An armed controller reads the clock (R236). -/
theorem State.pollClock_of_armed (h : s.armed = true) :
    s.pollClock = { s with clock := s.now, clockReads := s.clockReads + 1 } := by
  simp [State.pollClock, h]

/-- The clock input never decreases (R53). -/
theorem State.clock_le_pollClock : s.clock ≤ s.pollClock.clock := by
  unfold State.pollClock State.now
  split
  · exact Int.le_add_of_nonneg_right (Int.natCast_nonneg _)
  · exact Int.le_refl _

/-! ### Registers -/

theorem State.reg_setReg (r q : RegIndex) (v : Byte) :
    (s.setReg r v).reg q = if q = r then v else s.reg q := by
  simp only [State.reg, State.setReg, Vector.getElem_set]
  by_cases h : q = r
  · simp [h]
  · have : r.toNat ≠ q.toNat := fun e => h (BitVec.eq_of_toNat_eq e.symm)
    simp [h, this]

@[simp] theorem State.reg_setReg_same (r : RegIndex) (v : Byte) : (s.setReg r v).reg r = v := by
  simp [State.reg_setReg]

theorem State.reg_setReg_ne (r q : RegIndex) (v : Byte) (h : q ≠ r) :
    (s.setReg r v).reg q = s.reg q := by
  simp [State.reg_setReg, h]

@[simp] theorem State.setReg_setReg_same (r : RegIndex) (v w : Byte) :
    (s.setReg r v).setReg r w = s.setReg r w := by
  simp [State.setReg]

theorem State.setReg_comm (r q : RegIndex) (v w : Byte) (h : r ≠ q) :
    (s.setReg r v).setReg q w = (s.setReg q w).setReg r v := by
  have h' : r.toNat ≠ q.toNat := fun e => h (BitVec.eq_of_toNat_eq e)
  simp only [State.setReg]
  congr 1
  exact Vector.set_comm _ _ h'

/-- Two register files that read alike are equal. -/
theorem State.regs_ext (t : State) (h : ∀ r : RegIndex, t.reg r = s.reg r) : t.regs = s.regs := by
  apply Vector.ext
  intro i hi
  have := h (BitVec.ofNat 3 i)
  have hn : i % 8 = i := Nat.mod_eq_of_lt hi
  simpa [State.reg, BitVec.toNat_ofNat, hn] using this

/-- The register file's contract on a register index a decoder produces (R21). -/
theorem State.regGet_regIndex (r : RegIndex) : s.regGet r.toNat = .ok (s.reg r) := by
  simp [State.regGet, State.reg, r.isLt]

/-- The register file's contract on a register index a decoder produces (R21). -/
theorem State.regSet_regIndex (r : RegIndex) (v : Byte) :
    s.regSet r.toNat v = .ok (s.setReg r v) := by
  simp [State.regSet, State.setReg, r.isLt]

end Sys2Proof.Machine
end

