-- ==== Sys2Proof/Laws/Memory.lean ====
section
/-! SUPPORT. The laws of memory: a read after a write, the canonical form kept, and equal readings
of canonical memories are equal memories. -/

namespace Sys2Proof.Machine

theorem Memory.read_erase (m : Memory) (a b : Nat) :
    Memory.read (Memory.eraseAt m a) b = if b = a then Config.unwritten else m.read b := by
  induction m with
  | nil => simp [Memory.eraseAt, Memory.read]
  | cons c m ih =>
    by_cases h : c.1 = a
    · by_cases hb : b = a
      · simpa [Memory.eraseAt, h, hb] using ih
      · have : ¬ a = b := fun e => hb e.symm
        simp [Memory.eraseAt, Memory.read, h, ih, hb, this]
    · by_cases hc : c.1 = b
      · have : ¬ b = a := fun e => h (hc.trans e)
        simp [Memory.eraseAt, Memory.read, hc, this]
      · simp [Memory.eraseAt, Memory.read, h, hc, ih]

theorem Memory.erase_ne (m : Memory) (a : Nat) : ∀ c ∈ Memory.eraseAt m a, c.1 ≠ a := by
  induction m with
  | nil => simp [Memory.eraseAt]
  | cons c m ih =>
    by_cases h : c.1 = a
    · simpa [Memory.eraseAt, h] using ih
    · simpa [Memory.eraseAt, h] using ih

theorem Memory.read_insert (m : Memory) (a : Nat) (v : Byte) (b : Nat) (h : ∀ c ∈ m, c.1 ≠ a) :
    Memory.read (Memory.insertCell m (a, v)) b = if b = a then v else m.read b := by
  induction m with
  | nil =>
    by_cases hb : b = a
    · simp [Memory.insertCell, Memory.read, hb]
    · have : ¬ a = b := fun e => hb e.symm
      simp [Memory.insertCell, Memory.read, hb, this]
  | cons c m ih =>
    have hc : c.1 ≠ a := h c (by simp)
    have ih' := ih (fun d hd => h d (by simp [hd]))
    by_cases hlt : a < c.1
    · by_cases hb : b = a
      · simp [Memory.insertCell, Memory.read, hlt, hb]
      · have : ¬ a = b := fun e => hb e.symm
        simp [Memory.insertCell, Memory.read, hlt, hb, this]
    · by_cases hcb : c.1 = b
      · have : ¬ b = a := fun e => hc (hcb.trans e)
        rw [hcb] at hlt
        simp [Memory.insertCell, Memory.read, hlt, hcb, this]
      · simp [Memory.insertCell, Memory.read, hlt, hcb, ih']

/-- A read after a write: the byte written at its address, what was there everywhere else (R67). -/
theorem Memory.read_write (m : Memory) (a : Nat) (v : Byte) (b : Nat) :
    (m.write a v).read b = if b = a then v else m.read b := by
  unfold Memory.write
  split
  next h => rw [Memory.read_erase, h]
  next h =>
    rw [Memory.read_insert _ _ _ _ (Memory.erase_ne m a), Memory.read_erase]
    split <;> rfl

theorem Memory.wf_cons (c : Host.Cell) (m : Memory) :
    Memory.wf (c :: m) = true ↔
      c.1 < Config.memSize ∧ c.2 ≠ Config.unwritten ∧ Memory.above c.1 m = true ∧ m.wf = true := by
  simp [Memory.wf, and_assoc]

theorem Memory.above_mono (a b : Nat) (m : Memory) (hab : a ≤ b) (h : Memory.above b m = true) :
    Memory.above a m = true := by
  cases m with
  | nil => rfl
  | cons c m => simp [Memory.above] at h ⊢; omega

theorem Memory.erase_wf_above (m : Memory) (a x : Nat) (hw : m.wf = true)
    (hx : Memory.above x m = true) :
    Memory.wf (Memory.eraseAt m a) = true ∧ Memory.above x (Memory.eraseAt m a) = true := by
  induction m generalizing x with
  | nil => exact ⟨rfl, rfl⟩
  | cons c m ih =>
    obtain ⟨h1, h2, h3, h4⟩ := (Memory.wf_cons c m).1 hw
    have hxc : x < c.1 := by simpa [Memory.above] using hx
    by_cases h : c.1 = a
    · simpa [Memory.eraseAt, h] using ih x h4 (Memory.above_mono _ _ _ hxc.le h3)
    · obtain ⟨i1, i2⟩ := ih c.1 h4 h3
      rw [show Memory.eraseAt (c :: m) a = c :: Memory.eraseAt m a by simp [Memory.eraseAt, h]]
      exact ⟨(Memory.wf_cons _ _).2 ⟨h1, h2, i2, i1⟩, by simpa [Memory.above] using hxc⟩

theorem Memory.erase_wf (m : Memory) (a : Nat) (hw : m.wf = true) : Memory.wf (Memory.eraseAt m a) = true := by
  cases m with
  | nil => rfl
  | cons c m =>
    obtain ⟨h1, h2, h3, h4⟩ := (Memory.wf_cons c m).1 hw
    obtain ⟨i1, i2⟩ := Memory.erase_wf_above m a c.1 h4 h3
    by_cases h : c.1 = a
    · simpa [Memory.eraseAt, h] using h ▸ i1
    · rw [show Memory.eraseAt (c :: m) a = c :: Memory.eraseAt m a by simp [Memory.eraseAt, h]]
      exact (Memory.wf_cons _ _).2 ⟨h1, h2, i2, i1⟩

theorem Memory.insert_above (m : Memory) (d : Host.Cell) (x : Nat) (hx : x < d.1)
    (h : Memory.above x m = true) : Memory.above x (Memory.insertCell m d) = true := by
  cases m with
  | nil => simpa [Memory.insertCell, Memory.above] using hx
  | cons c m =>
    by_cases hlt : d.1 < c.1
    · simpa [Memory.insertCell, hlt, Memory.above] using hx
    · simpa [Memory.insertCell, hlt, Memory.above] using h

theorem Memory.insert_wf (m : Memory) (d : Host.Cell) (hd : d.1 < Config.memSize)
    (hv : d.2 ≠ Config.unwritten) (hne : ∀ c ∈ m, c.1 ≠ d.1) (hw : m.wf = true) :
    Memory.wf (Memory.insertCell m d) = true := by
  induction m with
  | nil => exact (Memory.wf_cons _ _).2 ⟨hd, hv, rfl, rfl⟩
  | cons c m ih =>
    obtain ⟨h1, h2, h3, h4⟩ := (Memory.wf_cons c m).1 hw
    have hc : c.1 ≠ d.1 := hne c (by simp)
    by_cases hlt : d.1 < c.1
    · rw [show Memory.insertCell (c :: m) d = d :: c :: m by simp [Memory.insertCell, hlt]]
      exact (Memory.wf_cons _ _).2 ⟨hd, hv, by simpa [Memory.above] using hlt, hw⟩
    · rw [show Memory.insertCell (c :: m) d = c :: Memory.insertCell m d by simp [Memory.insertCell, hlt]]
      exact (Memory.wf_cons _ _).2 ⟨h1, h2, Memory.insert_above m d c.1 (by omega) h3,
        ih (fun e he => hne e (by simp [he])) h4⟩

/-- A write inside memory keeps the canonical form. -/
theorem Memory.write_wf (m : Memory) (a : Nat) (v : Byte) (ha : a < Config.memSize)
    (hw : m.wf = true) : (m.write a v).wf = true := by
  unfold Memory.write
  split
  · exact Memory.erase_wf m a hw
  next h => exact Memory.insert_wf _ _ ha h (Memory.erase_ne m a) (Memory.erase_wf m a hw)

/-- A store keeps the canonical form. -/
theorem State.storeByte_wf (s : State) (a v : Byte) (hw : s.mem.wf = true) :
    (s.storeByte a v).mem.wf = true :=
  Memory.write_wf _ _ _ a.isLt hw

/-- A write through the memory's contract keeps the canonical form (R61). -/
theorem State.memSet_wf (s t : State) (a : Nat) (v : Byte) (h : s.memSet a v = .ok t)
    (hw : s.mem.wf = true) : t.mem.wf = true := by
  unfold State.memSet at h
  split at h
  next ha => cases h; exact Memory.write_wf _ _ _ ha hw
  next => cases h

theorem Memory.read_above (m : Memory) (x a : Nat) (hw : m.wf = true)
    (hx : Memory.above x m = true) (ha : a ≤ x) : m.read a = Config.unwritten := by
  induction m generalizing x with
  | nil => rfl
  | cons c m ih =>
    obtain ⟨-, -, h3, h4⟩ := (Memory.wf_cons c m).1 hw
    have hxc : x < c.1 := by simpa [Memory.above] using hx
    have : ¬ c.1 = a := by omega
    simpa [Memory.read, this] using ih c.1 h4 h3 (by omega)

/-- Canonical memories that read alike at every address are the same list. -/
theorem Memory.ext_of_wf (m n : Memory) (hm : m.wf = true) (hn : n.wf = true)
    (h : ∀ a, m.read a = n.read a) : m = n := by
  induction m generalizing n with
  | nil =>
    cases n with
    | nil => rfl
    | cons d n =>
      obtain ⟨-, h2, -, -⟩ := (Memory.wf_cons d n).1 hn
      exact absurd (by simpa [Memory.read] using (h d.1).symm) h2
  | cons c m ih =>
    obtain ⟨-, c2, c3, c4⟩ := (Memory.wf_cons c m).1 hm
    cases n with
    | nil => exact absurd (by simpa [Memory.read] using h c.1) c2
    | cons d n =>
      obtain ⟨-, d2, d3, d4⟩ := (Memory.wf_cons d n).1 hn
      have hcd : c.1 = d.1 := by
        rcases Nat.lt_trichotomy c.1 d.1 with lt | eq | gt
        · have e := h c.1
          have hr : Memory.read (d :: n) c.1 = Config.unwritten := by
            rw [Memory.read, if_neg (by omega)]
            exact Memory.read_above n d.1 c.1 d4 d3 (by omega)
          rw [hr] at e
          exact absurd (by simpa [Memory.read] using e) c2
        · exact eq
        · have e := h d.1
          have hr : Memory.read (c :: m) d.1 = Config.unwritten := by
            rw [Memory.read, if_neg (by omega)]
            exact Memory.read_above m c.1 d.1 c4 c3 (by omega)
          rw [hr] at e
          exact absurd (by simpa [Memory.read] using e.symm) d2
      have hval : c.2 = d.2 := by simpa [Memory.read, hcd] using h c.1
      have htail : m = n := by
        apply ih n c4 d4
        intro a
        by_cases ha : c.1 = a
        · rw [Memory.read_above m c.1 a c4 c3 (by omega),
            Memory.read_above n d.1 a d4 d3 (by omega)]
        · have hd : ¬ d.1 = a := by omega
          simpa [Memory.read, ha, hd] using h a
      rw [htail, Prod.ext hcd hval]

/-! ### Bytes of a state -/

theorem State.loadByte_storeByte (s : State) (a v x : Byte) :
    (s.storeByte a v).loadByte x = if x = a then v else s.loadByte x := by
  simp only [State.loadByte, State.storeByte_mem, Memory.read_write]
  by_cases h : x = a
  · simp [h]
  · have : ¬ x.toNat = a.toNat := fun e => h (BitVec.eq_of_toNat_eq e)
    simp [h, this]

@[simp] theorem State.loadByte_storeByte_same (s : State) (a v : Byte) :
    (s.storeByte a v).loadByte a = v := by
  simp [State.loadByte_storeByte]

end Sys2Proof.Machine
end

