-- ==== Sys2Proof/Laws/Stack.lean ====
section
/-! SUPPORT. What the stack operations, faults and phase ends can do. -/

namespace Sys2Proof.Machine

@[simp] theorem State.finish_ok (s t : State) : s.finish (.ok t) = .next t := rfl

@[simp] theorem State.finish_error (s : State) (k : FaultKind) :
    s.finish (.error k) = .next (s.raise k) := rfl

/-- A phase ends in its result, or in its fault with its writes undone (R222). -/
theorem State.finish_next (s t : State) (r : Except FaultKind State) (h : s.finish r = .next t) :
    r = .ok t ∨ ∃ k, r = .error k ∧ t = s.raise k := by
  cases r with
  | ok u => cases h; exact .inl rfl
  | error k => cases h; exact .inr ⟨k, rfl, rfl⟩

theorem State.spDown_of_zero (s : State) (h : s.sp = 0#8) :
    s.spDown = .error .outOfBoundsAccess := by
  simp only [State.spDown, if_pos h]

theorem State.spDown_of_ne (s : State) (h : s.sp ≠ 0#8) :
    s.spDown = .ok (s.setReg spIndex (s.sp - 1#8)) := by
  simp only [State.spDown, if_neg h]

theorem State.spUp_of_max (s : State) (h : s.sp = 255#8) :
    s.spUp = .error .outOfBoundsAccess := by
  simp only [State.spUp, if_pos h]

theorem State.spUp_of_ne (s : State) (h : s.sp ≠ 255#8) :
    s.spUp = .ok (s.setReg spIndex (s.sp + 1#8)) := by
  simp only [State.spUp, if_neg h]

theorem State.push_of_zero (s : State) (v : Byte) (h : s.sp = 0#8) :
    s.push v = .error .outOfBoundsAccess := by
  simp only [State.push, State.spDown_of_zero s h]

theorem State.push_of_ne (s : State) (v : Byte) (h : s.sp ≠ 0#8) :
    s.push v = .ok ((s.setReg spIndex (s.sp - 1#8)).storeByte (s.sp - 1#8) v) := by
  simp only [State.push, State.spDown_of_ne s h, State.reg_setReg_same]

theorem State.pop_of_max (s : State) (h : s.sp = 255#8) :
    s.pop = .error .outOfBoundsAccess := by
  simp only [State.pop, State.spUp_of_max s h]

theorem State.pop_of_ne (s : State) (h : s.sp ≠ 255#8) :
    s.pop = .ok (s.loadByte s.sp, s.setReg spIndex (s.sp + 1#8)) := by
  simp only [State.pop, State.spUp_of_ne s h]

theorem byte_sub_one (a : Byte) (h : a ≠ 0#8) : (a - 1#8).toNat = a.toNat - 1 := by
  have h0 : a.toNat ≠ 0 := fun e => h (BitVec.eq_of_toNat_eq (by simpa using e))
  rw [BitVec.toNat_sub]
  have := a.isLt
  simp
  omega

theorem byte_add_one (a : Byte) (h : a ≠ 255#8) : (a + 1#8).toNat = a.toNat + 1 := by
  have h0 : a.toNat ≠ 255 := fun e => h (BitVec.eq_of_toNat_eq (by simpa using e))
  rw [BitVec.toNat_add]
  have := a.isLt
  simp
  omega

theorem byte_ne_zero (a : Byte) : a ≠ 0#8 ↔ 1 ≤ a.toNat := by
  constructor
  · intro h
    rcases Nat.eq_zero_or_pos a.toNat with e | e
    · exact absurd (BitVec.eq_of_toNat_eq (by simpa using e)) h
    · exact e
  · rintro h rfl
    simp at h

theorem byte_ne_max (a : Byte) : a ≠ 255#8 ↔ a.toNat ≤ 254 := by
  constructor
  · intro h
    have := a.isLt
    by_contra hc
    exact h (BitVec.eq_of_toNat_eq (by simp; omega))
  · rintro h rfl
    simp at h

/-- Every field but memory and SP is as before. -/
structure SameButStack (s t : State) : Prop where
  regs : SameRegsBut [spIndex] s t
  pc : t.pc = s.pc
  fl : t.fl = s.fl
  ien : t.ien = s.ien
  lt : t.lt = s.lt
  status : t.status = s.status
  output : t.output = s.output
  pIret : t.pIret = s.pIret
  clock : t.clock = s.clock
  clockReads : t.clockReads = s.clockReads

theorem SameButStack.refl (s : State) : SameButStack s s :=
  ⟨fun _ _ => rfl, rfl, rfl, rfl, rfl, rfl, rfl, rfl, rfl, rfl⟩

theorem SameButStack.trans {s t u : State} (h : SameButStack s t) (g : SameButStack t u) :
    SameButStack s u :=
  ⟨fun r hr => (g.regs r hr).trans (h.regs r hr), g.pc.trans h.pc, g.fl.trans h.fl,
    g.ien.trans h.ien, g.lt.trans h.lt, g.status.trans h.status, g.output.trans h.output,
    g.pIret.trans h.pIret, g.clock.trans h.clock, g.clockReads.trans h.clockReads⟩

/-- What one push does (R160). -/
theorem State.push_spec (s t : State) (v : Byte) (h : s.push v = .ok t) :
    1 ≤ s.sp.toNat ∧ t.sp.toNat = s.sp.toNat - 1 ∧
      (∀ a, t.mem.read a = if a = s.sp.toNat - 1 then v else s.mem.read a) ∧ SameButStack s t := by
  by_cases hz : s.sp = 0#8
  · rw [State.push_of_zero s v hz] at h; cases h
  · rw [State.push_of_ne s v hz] at h
    cases h
    refine ⟨(byte_ne_zero _).1 hz, ?_, ?_, ?_⟩
    · simpa using byte_sub_one _ hz
    · intro a
      rw [State.storeByte_mem, Memory.read_write, byte_sub_one _ hz]
      rfl
    · refine ⟨?_, rfl, rfl, rfl, rfl, rfl, rfl, rfl, rfl, rfl⟩
      intro r hr
      simpa using State.reg_setReg_ne s _ _ _ (by simpa using hr)

/-- What several pushes do: SP falls by their number, each byte lies one below the last, and the
rest of memory is as before (R160, R238). -/
theorem State.pushAll_spec (vs : List Byte) (s t : State) (h : s.pushAll vs = .ok t) :
    vs.length ≤ s.sp.toNat ∧ t.sp.toNat = s.sp.toNat - vs.length ∧
      (∀ i (hi : i < vs.length), t.mem.read (s.sp.toNat - 1 - i) = vs[i]) ∧
      (∀ a, a < s.sp.toNat - vs.length ∨ s.sp.toNat ≤ a → t.mem.read a = s.mem.read a) ∧
      SameButStack s t := by
  induction vs generalizing s with
  | nil => cases h; simp [SameButStack.refl]
  | cons v vs ih =>
    simp only [State.pushAll] at h
    cases hp : s.push v with
    | error k => simp [hp] at h
    | ok u =>
      simp only [hp] at h
      obtain ⟨p1, p2, p3, p4⟩ := State.push_spec s u v hp
      obtain ⟨i1, i2, i3, i4, i5⟩ := ih u h
      simp only [List.length_cons]
      refine ⟨by omega, by omega, ?_, ?_, p4.trans i5⟩
      · intro i hi
        cases i with
        | zero => rw [i4 _ (by omega), p3]; simp
        | succ i =>
          have := i3 i (by simpa using hi)
          rw [p2] at this
          simpa [show s.sp.toNat - 1 - (i + 1) = s.sp.toNat - 1 - 1 - i by omega] using this
      · intro a ha
        rw [i4 a (by omega), p3, if_neg (by omega)]

/-- Several pushes end well exactly where SP has room for them (R160). -/
theorem State.pushAll_ok (vs : List Byte) (s : State) (h : vs.length ≤ s.sp.toNat) :
    ∃ t, s.pushAll vs = .ok t := by
  induction vs generalizing s with
  | nil => exact ⟨s, rfl⟩
  | cons v vs ih =>
    simp only [List.length_cons] at h
    have hz : s.sp ≠ 0#8 := (byte_ne_zero _).2 (by omega)
    have hp := State.push_of_ne s v hz
    obtain ⟨-, p2, -, -⟩ := State.push_spec s _ v hp
    obtain ⟨t, ht⟩ := ih _ (by rw [p2]; omega)
    exact ⟨t, by simp only [State.pushAll, hp, ht]⟩

/-- Several pushes without room raise OutOfBoundsAccess (R160). -/
theorem State.pushAll_error (vs : List Byte) (s : State) (h : s.sp.toNat < vs.length) :
    s.pushAll vs = .error .outOfBoundsAccess := by
  induction vs generalizing s with
  | nil => simp at h
  | cons v vs ih =>
    simp only [List.length_cons] at h
    by_cases hz : s.sp = 0#8
    · simp only [State.pushAll, State.push_of_zero s v hz]
    · have hp := State.push_of_ne s v hz
      obtain ⟨p1, p2, -, -⟩ := State.push_spec s _ v hp
      simp only [State.pushAll, hp]
      exact ih _ (by rw [p2]; omega)

/-- A push keeps memory's canonical form. -/
theorem State.push_wf (s t : State) (v : Byte) (h : s.push v = .ok t) (hw : s.mem.wf = true) :
    t.mem.wf = true := by
  by_cases hz : s.sp = 0#8
  · rw [State.push_of_zero s v hz] at h; cases h
  · rw [State.push_of_ne s v hz] at h
    cases h
    exact State.storeByte_wf _ _ _ hw

/-- Several pushes keep memory's canonical form. -/
theorem State.pushAll_wf (vs : List Byte) (s t : State) (h : s.pushAll vs = .ok t)
    (hw : s.mem.wf = true) : t.mem.wf = true := by
  induction vs generalizing s with
  | nil => cases h; exact hw
  | cons v vs ih =>
    simp only [State.pushAll] at h
    cases hp : s.push v with
    | error k => simp [hp] at h
    | ok u => simp only [hp] at h; exact ih u h (State.push_wf s u v hp hw)

/-- What one pop does (R161): memory is as before. -/
theorem State.pop_spec (s t : State) (v : Byte) (h : s.pop = .ok (v, t)) :
    s.sp.toNat ≤ 254 ∧ v = s.mem.read s.sp.toNat ∧ t.sp.toNat = s.sp.toNat + 1 ∧ t.mem = s.mem ∧
      SameButStack s t := by
  by_cases hz : s.sp = 255#8
  · rw [State.pop_of_max s hz] at h; cases h
  · rw [State.pop_of_ne s hz] at h
    cases h
    refine ⟨(byte_ne_max _).1 hz, rfl, ?_, rfl, ?_⟩
    · simpa using byte_add_one _ hz
    · refine ⟨?_, rfl, rfl, rfl, rfl, rfl, rfl, rfl, rfl, rfl⟩
      intro r hr
      exact State.reg_setReg_ne s _ _ _ (by simpa using hr)

/-- A pop ends well below the top address (R161). -/
theorem State.pop_ok (s : State) (h : s.sp.toNat ≤ 254) : ∃ t, s.pop = .ok (s.loadByte s.sp, t) :=
  ⟨_, State.pop_of_ne s ((byte_ne_max _).2 h)⟩

/-- What pops into registers do: SP rises by their number, memory is as before, and each register
holds the byte above the last one's (R204). -/
theorem State.popInto_spec (rs : List RegIndex) (s t : State) (hsp : spIndex ∉ rs) (hn : rs.Nodup)
    (h : s.popInto rs = .ok t) :
    s.sp.toNat + rs.length ≤ 255 ∧ t.sp.toNat = s.sp.toNat + rs.length ∧ t.mem = s.mem ∧
      (∀ i (hi : i < rs.length), t.reg rs[i] = s.mem.read (s.sp.toNat + i)) ∧
      SameRegsBut (spIndex :: rs) s t ∧ t.pc = s.pc ∧ t.fl = s.fl ∧ SameControl s t := by
  induction rs generalizing s with
  | nil =>
    cases h
    have := t.sp.isLt
    exact ⟨by simp; omega, rfl, rfl, by simp, fun _ _ => rfl, rfl, rfl, rfl, rfl, rfl, rfl, rfl,
      rfl, rfl⟩
  | cons r rs ih =>
    simp only [State.popInto] at h
    cases hp : s.pop with
    | error k => simp [hp] at h
    | ok vu =>
      obtain ⟨v, u⟩ := vu
      simp only [hp] at h
      have hr : spIndex ≠ r := fun e => hsp (by simp [e])
      have hrs : spIndex ∉ rs := fun e => hsp (by simp [e])
      obtain ⟨hnr, hn'⟩ := List.nodup_cons.1 hn
      obtain ⟨p1, p2, p3, p4, p5⟩ := State.pop_spec s u v hp
      have hsp' : (u.setReg r v).sp = u.sp := State.reg_setReg_ne _ _ _ _ hr
      obtain ⟨i1, i2, i3, i4, i5, i6, i7, i8, i9, i10⟩ := ih (u.setReg r v) hrs hn' h
      rw [hsp'] at i1 i2 i4
      simp only [List.length_cons]
      refine ⟨by omega, by omega, i3.trans p4, ?_, ?_, i6.trans p5.pc, i7.trans p5.fl,
        i8.trans p5.status, i9.trans p5.output, i10.1.trans p5.ien, i10.2.1.trans p5.lt,
        i10.2.2.1.trans p5.pIret, i10.2.2.2.1.trans p5.clock, i10.2.2.2.2.trans p5.clockReads⟩
      · intro i hi
        cases i with
        | zero =>
          have : t.reg r = (u.setReg r v).reg r := i5 r (by simp [hnr, Ne.symm hr])
          simpa [this] using p2
        | succ i =>
          have := i4 i (by simpa using hi)
          simp only [State.setReg_mem, p4, p3] at this
          simpa [show s.sp.toNat + (i + 1) = s.sp.toNat + 1 + i by omega] using this
      · intro q hq
        simp only [List.mem_cons, not_or] at hq
        rw [i5 q (by simp [hq.1, hq.2.2]), State.reg_setReg_ne _ _ _ _ hq.2.1]
        exact p5.regs q (by simp [hq.1])

/-- Pops into registers end well exactly where SP has room to rise (R161). -/
theorem State.popInto_ok (rs : List RegIndex) (s : State) (hsp : spIndex ∉ rs)
    (h : s.sp.toNat + rs.length ≤ 255) : ∃ t, s.popInto rs = .ok t := by
  induction rs generalizing s with
  | nil => exact ⟨s, rfl⟩
  | cons r rs ih =>
    simp only [List.length_cons] at h
    have hr : spIndex ≠ r := fun e => hsp (by simp [e])
    have hz : s.sp ≠ 255#8 := (byte_ne_max _).2 (by omega)
    have hp := State.pop_of_ne s hz
    obtain ⟨-, -, p3, -, -⟩ := State.pop_spec s _ _ hp
    obtain ⟨t, ht⟩ := ih (((s.setReg spIndex (s.sp + 1#8))).setReg r (s.loadByte s.sp))
      (fun e => hsp (by simp [e])) (by
        have : (((s.setReg spIndex (s.sp + 1#8))).setReg r (s.loadByte s.sp)).sp =
            (s.setReg spIndex (s.sp + 1#8)).sp := State.reg_setReg_ne _ _ _ _ hr
        rw [this, p3]; omega)
    exact ⟨t, by simp only [State.popInto, hp, ht]⟩

/-- Pops into registers without room raise OutOfBoundsAccess (R161). -/
theorem State.popInto_error (rs : List RegIndex) (s : State) (hsp : spIndex ∉ rs)
    (h : 255 < s.sp.toNat + rs.length) : s.popInto rs = .error .outOfBoundsAccess := by
  induction rs generalizing s with
  | nil => have := s.sp.isLt; simp at h; omega
  | cons r rs ih =>
    simp only [List.length_cons] at h
    have hr : spIndex ≠ r := fun e => hsp (by simp [e])
    by_cases hz : s.sp = 255#8
    · simp only [State.popInto, State.pop_of_max s hz]
    · have hp := State.pop_of_ne s hz
      obtain ⟨-, -, p3, -, -⟩ := State.pop_spec s _ _ hp
      simp only [State.popInto, hp]
      refine ih _ (fun e => hsp (by simp [e])) ?_
      have : (((s.setReg spIndex (s.sp + 1#8))).setReg r (s.loadByte s.sp)).sp =
          (s.setReg spIndex (s.sp + 1#8)).sp := State.reg_setReg_ne _ _ _ _ hr
      rw [this, p3]; omega

end Sys2Proof.Machine
end

