-- ==== Sys2Proof/Laws/Interrupt.lean ====
section
/-! SUPPORT. What the interrupt check, the entry and the return can do. -/

namespace Sys2Proof.Machine

theorem State.interruptDue_iff (s : State) :
    s.interruptDue ↔ s.armed = true ∧ s.timerDue Config.oneSecond s.clock = true := by
  simp [State.interruptDue, State.armed, State.timerDue, and_assoc]

/-- Where the controller is armed the scan finds bit 0 (R238). -/
theorem scanMasked_armed (s : State) (h : s.armed = true) :
    scanMasked ((s.setReg isIndex 1#8).im &&& (s.setReg isIndex 1#8).is) = some 0 := by
  have h0 : s.im.getLsbD 0 = true := by
    simp only [State.armed, Bool.and_eq_true] at h; exact h.2
  have him : (s.setReg isIndex 1#8).im = s.im := State.reg_setReg_ne _ _ _ _ (by decide)
  have his : (s.setReg isIndex 1#8).is = 1#8 := State.reg_setReg_same _ _ _
  rw [him, his]
  have : (s.im &&& 1#8).getLsbD 0 = true := by rw [BitVec.getLsbD_and, h0]; decide
  simp only [scanMasked, List.find?, this]

/-- IS is written 1 and then 0 within one entry, so its value before has no effect (R24). -/
theorem State.interruptEntry_setIs (s : State) (v : Byte) (now : Int) :
    (s.setReg isIndex v).interruptEntry now = s.interruptEntry now := by
  have h : ((s.setReg isIndex v).setIen false).setReg isIndex 0#8 =
      (s.setIen false).setReg isIndex 0#8 := State.setReg_setReg_same (s.setIen false) _ _ _
  simp only [State.interruptEntry, h]

/-- The interrupt check: nothing, or the entry (R236, R237, R238). -/
theorem State.interruptCheck_eq (s : State) (os : Nat) (now : Int) :
    s.interruptCheck os now =
      if s.armed = true ∧ s.timerDue os now = true then s.interruptEntry now else .ok s := by
  by_cases ha : s.armed = true
  · by_cases hd : s.timerDue os now = true
    · simp only [State.interruptCheck, ha, hd, if_true, and_self, scanMasked_armed s ha,
        State.interruptEntry_setIs]
    · simp [State.interruptCheck, hd]
  · simp [State.interruptCheck, ha]

theorem State.phaseB_of_due (s : State) (h : s.interruptDue) :
    s.phaseB = s.interruptEntry s.clock := by
  rw [State.phaseB, State.interruptCheck_eq, if_pos ((State.interruptDue_iff s).1 h)]

theorem State.phaseB_of_not_due (s : State) (h : ¬ s.interruptDue) : s.phaseB = .ok s := by
  rw [State.phaseB, State.interruptCheck_eq, if_neg (fun c => h ((State.interruptDue_iff s).2 c))]

theorem State.context_length (s : State) : s.context.length = 8 := rfl

/-- The state after an interrupt entry from `s` at clock `now` (R238, R240, R241). -/
structure Entered (s : State) (now : Int) (t : State) : Prop where
  room : 8 ≤ s.sp.toNat
  sp : t.sp.toNat = s.sp.toNat - 8
  savedPc : t.mem.read (s.sp.toNat - 1) = BitVec.ofNat 8 s.pc
  savedFl : t.mem.read (s.sp.toNat - 2) = flagsByte s.fl
  savedReg : ∀ r : RegIndex, r.toNat < 6 → t.mem.read (s.sp.toNat - 3 - r.toNat) = s.reg r
  mem : ∀ a, a < s.sp.toNat - 8 ∨ s.sp.toNat ≤ a → t.mem.read a = s.mem.read a
  regs : SameRegsBut [isIndex, spIndex] s t
  is : t.is = 0#8
  ien : t.ien = false
  lt : t.lt = now
  pc : t.pc = (t.loadByte Config.vectorAddr).toNat
  fl : t.fl = s.fl
  status : t.status = s.status
  output : t.output = s.output
  pIret : t.pIret = s.pIret
  clock : t.clock = s.clock
  clockReads : t.clockReads = s.clockReads
  wf : s.mem.wf = true → t.mem.wf = true

/-- What an interrupt entry does (R238). -/
theorem State.interruptEntry_spec (s t : State) (now : Int) (h : s.interruptEntry now = .ok t) :
    Entered s now t := by
  simp only [State.interruptEntry] at h
  generalize hs₁ : (s.setIen false).setReg isIndex 0#8 = s₁ at h
  have hreg : ∀ r, r ≠ isIndex → s₁.reg r = s.reg r := by
    intro r hr; rw [← hs₁]; exact State.reg_setReg_ne _ _ _ _ hr
  have hsp : s₁.sp = s.sp := hreg _ (by decide)
  have hmem : s₁.mem = s.mem := by rw [← hs₁]; rfl
  cases hp : s₁.pushAll s₁.context with
  | error k => simp [hp] at h
  | ok u =>
    simp only [hp, Except.ok.injEq] at h
    obtain ⟨p1, p2, p3, p4, p5⟩ := State.pushAll_spec _ _ _ hp
    rw [State.context_length, hsp] at p1 p2 p4
    have hpc : s₁.pc = s.pc := by rw [← hs₁]; rfl
    have hfl : s₁.fl = s.fl := by rw [← hs₁]; rfl
    rw [hsp] at p3
    have q0 := p3 0 (by simp [State.context_length])
    have q1 := p3 1 (by simp [State.context_length])
    have q2 := p3 2 (by simp [State.context_length])
    have q3 := p3 3 (by simp [State.context_length])
    have q4 := p3 4 (by simp [State.context_length])
    have q5 := p3 5 (by simp [State.context_length])
    have q6 := p3 6 (by simp [State.context_length])
    have q7 := p3 7 (by simp [State.context_length])
    simp only [State.context, List.getElem_cons_zero, List.getElem_cons_succ, hpc, hfl,
      hreg 0#3 (by decide), hreg 1#3 (by decide), hreg 2#3 (by decide), hreg 3#3 (by decide),
      hreg 4#3 (by decide), hreg 5#3 (by decide)] at q0 q1 q2 q3 q4 q5 q6 q7
    subst h
    refine ⟨p1, p2, by simpa using q0, by simpa [Nat.sub_sub] using q1, ?_, ?_, ?_, ?_, ?_, rfl,
      ?_, ?_, ?_, ?_, ?_, ?_, ?_, ?_⟩
    · intro r hr
      simp only [State.setLt_mem, State.setPc_mem]
      have hcases : r = 0#3 ∨ r = 1#3 ∨ r = 2#3 ∨ r = 3#3 ∨ r = 4#3 ∨ r = 5#3 := by
        have : ∀ q : RegIndex, q.toNat < 6 →
          (q = 0#3 ∨ q = 1#3 ∨ q = 2#3 ∨ q = 3#3 ∨ q = 4#3 ∨ q = 5#3) := by decide
        exact this r hr
      rcases hcases with rfl | rfl | rfl | rfl | rfl | rfl
      · simpa [Nat.sub_sub] using q2
      · simpa [Nat.sub_sub] using q3
      · simpa [Nat.sub_sub] using q4
      · simpa [Nat.sub_sub] using q5
      · simpa [Nat.sub_sub] using q6
      · simpa [Nat.sub_sub] using q7
    · intro a ha
      simpa [hmem] using p4 a ha
    · intro r hr
      simp only [List.mem_cons, List.not_mem_nil, or_false, not_or] at hr
      simpa using (p5.regs r (by simp [hr.2])).trans (hreg r hr.1)
    · have : u.reg isIndex = s₁.reg isIndex := p5.regs _ (by decide)
      simp only [State.is, State.setLt_reg, State.setPc_reg, this]
      rw [← hs₁]; simp
    · simpa [p5.ien] using by rw [← hs₁]; rfl
    · simp
    · simpa [p5.fl] using hfl
    · simpa [p5.status] using by rw [← hs₁]; rfl
    · simpa [p5.output] using by rw [← hs₁]; rfl
    · simpa [p5.pIret] using by rw [← hs₁]; rfl
    · simpa [p5.clock] using by rw [← hs₁]; rfl
    · simpa [p5.clockReads] using by rw [← hs₁]; rfl
    · intro hw
      exact (State.pushAll_wf _ _ _ hp (by rw [hmem]; exact hw) : u.mem.wf = true)

/-- The entry ends well where the stack has room for eight bytes (R238). -/
theorem State.interruptEntry_ok (s : State) (now : Int) (h : 8 ≤ s.sp.toNat) :
    ∃ t, s.interruptEntry now = .ok t := by
  have hsp : ((s.setIen false).setReg isIndex 0#8).sp = s.sp :=
    State.reg_setReg_ne _ _ _ _ (by decide)
  obtain ⟨u, hu⟩ := State.pushAll_ok ((s.setIen false).setReg isIndex 0#8).context
    ((s.setIen false).setReg isIndex 0#8) (by rw [hsp, State.context_length]; exact h)
  exact ⟨_, by simp only [State.interruptEntry, hu]; rfl⟩

/-- The entry without that room raises OutOfBoundsAccess (R238). -/
theorem State.interruptEntry_error (s : State) (now : Int) (h : s.sp.toNat < 8) :
    s.interruptEntry now = .error .outOfBoundsAccess := by
  have hsp : ((s.setIen false).setReg isIndex 0#8).sp = s.sp :=
    State.reg_setReg_ne _ _ _ _ (by decide)
  have hu := State.pushAll_error ((s.setIen false).setReg isIndex 0#8).context
    ((s.setIen false).setReg isIndex 0#8) (by rw [hsp, State.context_length]; exact h)
  simp only [State.interruptEntry, hu]

/-- What phase B can do: nothing, or the entry of an interrupt that is due. -/
theorem State.phaseB_cases (s t : State) (h : s.phaseB = .ok t) :
    (¬ s.interruptDue ∧ t = s) ∨ (s.interruptDue ∧ Entered s s.clock t) := by
  by_cases hd : s.interruptDue
  · rw [State.phaseB_of_due s hd] at h
    exact .inr ⟨hd, State.interruptEntry_spec s t _ h⟩
  · rw [State.phaseB_of_not_due s hd] at h
    cases h
    exact .inl ⟨hd, rfl⟩

/-- How phase B can fault: an entry with less than eight bytes of stack (R224). -/
theorem State.phaseB_error (s : State) (k : FaultKind) (h : s.phaseB = .error k) :
    s.interruptDue ∧ s.sp.toNat < 8 ∧ k = .outOfBoundsAccess := by
  by_cases hd : s.interruptDue
  · rw [State.phaseB_of_due s hd] at h
    by_cases hs : 8 ≤ s.sp.toNat
    · obtain ⟨t, ht⟩ := State.interruptEntry_ok s s.clock hs
      rw [ht] at h; cases h
    · rw [State.interruptEntry_error s _ (by omega)] at h
      cases h
      exact ⟨hd, by omega, rfl⟩
  · rw [State.phaseB_of_not_due s hd] at h; cases h

/-- The state after the return from an interrupt from `s` (R204). -/
structure Returned (s t : State) : Prop where
  room : s.sp.toNat ≤ 247
  sp : t.sp.toNat = s.sp.toNat + 8
  reg : ∀ r : RegIndex, r.toNat < 6 → t.reg r = s.mem.read (s.sp.toNat + 5 - r.toNat)
  is : t.is = s.is
  fl : t.fl = flagsOfByte (s.mem.read (s.sp.toNat + 6))
  pc : t.pc = (s.mem.read (s.sp.toNat + 7)).toNat
  ien : t.ien = true
  mem : t.mem = s.mem
  lt : t.lt = s.lt
  status : t.status = s.status
  output : t.output = s.output
  pIret : t.pIret = s.pIret
  clock : t.clock = s.clock
  clockReads : t.clockReads = s.clockReads

/-- What the return from an interrupt does (R204). -/
theorem State.interruptReturn_spec (s t : State) (h : s.interruptReturn = .ok t) :
    Returned s t := by
  simp only [State.interruptReturn] at h
  cases hp : s.popInto [5#3, 4#3, 3#3, 2#3, 1#3, 0#3] with
  | error k => simp [hp] at h
  | ok u =>
    obtain ⟨u1, u2, u3, u4, u5, u6, u7, u8, u9, u10⟩ :=
      State.popInto_spec _ _ _ (by decide) (by decide) hp
    simp only [hp] at h
    cases hf : u.pop with
    | error k => simp [hf] at h
    | ok fv =>
      obtain ⟨f, v⟩ := fv
      obtain ⟨f1, f2, f3, f4, f5⟩ := State.pop_spec _ _ _ hf
      simp only [hf] at h
      cases hq : (v.setFl (flagsOfByte f)).pop with
      | error k => simp [hq] at h
      | ok pw =>
        obtain ⟨p, w⟩ := pw
        obtain ⟨p1, p2, p3, p4, p5⟩ := State.pop_spec _ _ _ hq
        simp only [hq, Except.ok.injEq] at h
        have e : (v.setFl (flagsOfByte f)).sp = v.sp := rfl
        rw [e] at p1 p2 p3
        simp only [List.length_cons, List.length_nil] at u1 u2
        have hw : ∀ r, r ≠ spIndex → w.reg r = u.reg r := fun r hr =>
          (p5.regs r (by simpa using hr)).trans (f5.regs r (by simpa using hr))
        subst h
        refine ⟨by omega, (by omega : w.sp.toNat = s.sp.toNat + 8), ?_, ?_, ?_, ?_, rfl, ?_, ?_, ?_, ?_, ?_, ?_, ?_⟩
        · intro r hr
          have hr' : r ≠ spIndex := by rintro rfl; simp [spIndex] at hr
          simp only [State.setIen_reg, State.setPc_reg, hw r hr']
          have hcases : r = 0#3 ∨ r = 1#3 ∨ r = 2#3 ∨ r = 3#3 ∨ r = 4#3 ∨ r = 5#3 := by
            have : ∀ q : RegIndex, q.toNat < 6 →
              (q = 0#3 ∨ q = 1#3 ∨ q = 2#3 ∨ q = 3#3 ∨ q = 4#3 ∨ q = 5#3) := by decide
            exact this r hr
          rcases hcases with rfl | rfl | rfl | rfl | rfl | rfl
          · exact u4 5 (by decide)
          · exact u4 4 (by decide)
          · exact u4 3 (by decide)
          · exact u4 2 (by decide)
          · exact u4 1 (by decide)
          · exact u4 0 (by decide)
        · have := u5 isIndex (by decide)
          simpa [hw isIndex (by decide)] using this
        · have : w.fl = flagsOfByte f := p5.fl
          simp only [State.setIen_fl, State.setPc_fl, this, f2, u3, u2]
        · simp only [State.setIen_pc, State.setPc_pc, p2, State.setFl_mem, f4, u3, f3, u2]
        · simp [p4, f4, u3]
        · simp [p5.lt, f5.lt, u10.2.1]
        · simp [p5.status, f5.status, u8]
        · simp [p5.output, f5.output, u9]
        · simp [p5.pIret, f5.pIret, u10.2.2.1]
        · simp [p5.clock, f5.clock, u10.2.2.2.1]
        · simp [p5.clockReads, f5.clockReads, u10.2.2.2.2]

/-- The return ends well exactly where eight pops keep SP in range (R204). -/
theorem State.interruptReturn_ok (s : State) (h : s.sp.toNat ≤ 247) :
    ∃ t, s.interruptReturn = .ok t := by
  obtain ⟨u, hu⟩ := State.popInto_ok [5#3, 4#3, 3#3, 2#3, 1#3, 0#3] s (by decide)
    (by simp; omega)
  obtain ⟨-, u2, -⟩ := State.popInto_spec _ _ _ (by decide) (by decide) hu
  simp only [List.length_cons, List.length_nil] at u2
  obtain ⟨v, hv⟩ := State.pop_ok u (by omega)
  obtain ⟨-, -, f3, -, -⟩ := State.pop_spec _ _ _ hv
  have hsp : (v.setFl (flagsOfByte (u.loadByte u.sp))).sp = v.sp := rfl
  obtain ⟨w, hw⟩ := State.pop_ok (v.setFl (flagsOfByte (u.loadByte u.sp))) (by rw [hsp]; omega)
  exact ⟨_, by simp only [State.interruptReturn, hu, hv, hw]; rfl⟩

/-- The return raises OutOfBoundsAccess where a pop would take SP past 255 (R204). -/
theorem State.interruptReturn_error (s : State) (h : 247 < s.sp.toNat) :
    s.interruptReturn = .error .outOfBoundsAccess := by
  by_cases h6 : s.sp.toNat + 6 ≤ 255
  · obtain ⟨u, hu⟩ := State.popInto_ok [5#3, 4#3, 3#3, 2#3, 1#3, 0#3] s (by decide)
      (by simpa using h6)
    obtain ⟨-, u2, -⟩ := State.popInto_spec _ _ _ (by decide) (by decide) hu
    simp only [List.length_cons, List.length_nil] at u2
    by_cases h7 : u.sp = 255#8
    · simp only [State.interruptReturn, hu, State.pop_of_max u h7]
    · have hv := State.pop_of_ne u h7
      obtain ⟨f1, -, f3, -, -⟩ := State.pop_spec _ _ _ hv
      have h8 : ((u.setReg spIndex (u.sp + 1#8)).setFl (flagsOfByte (u.loadByte u.sp))).sp =
          255#8 := by
        apply BitVec.eq_of_toNat_eq
        have : ((u.setReg spIndex (u.sp + 1#8)).setFl (flagsOfByte (u.loadByte u.sp))).sp =
          (u.setReg spIndex (u.sp + 1#8)).sp := rfl
        rw [this, f3]; simp; omega
      simp only [State.interruptReturn, hu, hv, State.pop_of_max _ h8]
  · have hu := State.popInto_error [5#3, 4#3, 3#3, 2#3, 1#3, 0#3] s (by decide)
      (by simp; omega)
    simp only [State.interruptReturn, hu]

end Sys2Proof.Machine
end

