-- ==== Sys2Proof/Laws/Exec.lean ====
section
/-! SUPPORT. One equation per meaning that can fault, over its operands' values. -/

namespace Sys2Proof.Machine

theorem State.aluInstr_ok (s : State) (op : AluOp) (ra rb : RegIndex) (v : Byte)
    (h : aluResult op (s.reg ra) (s.reg rb) = some v) :
    s.aluInstr op ra rb = .ok ((s.setReg ra v).advance 3) := by
  simp only [State.aluInstr, State.aluApply, h]

theorem State.aluInstr_error (s : State) (op : AluOp) (ra rb : RegIndex)
    (h : aluResult op (s.reg ra) (s.reg rb) = none) :
    s.aluInstr op ra rb = .error .divisionByZero := by
  simp only [State.aluInstr, State.aluApply, h]

/-- ADD never faults (R131, R140). -/
theorem execAdd_eq (s : State) (ra rb : RegIndex) :
    execAdd ra rb s = .next ((s.setReg ra (s.reg ra + s.reg rb)).advance 3) := by
  rw [execAdd, State.aluInstr_ok s .add ra rb _ rfl, State.finish_ok]

/-- MUL never faults (R133, R141). -/
theorem execMul_eq (s : State) (ra rb : RegIndex) :
    execMul ra rb s = .next ((s.setReg ra (s.reg ra * s.reg rb)).advance 3) := by
  rw [execMul, State.aluInstr_ok s .multiply ra rb _ rfl, State.finish_ok]

/-- DIV faults exactly on a zero divisor (R134, R142). -/
theorem execDiv_eq (s : State) (ra rb : RegIndex) :
    execDiv ra rb s =
      if s.reg rb = 0#8 then .next (s.raise .divisionByZero)
      else .next ((s.setReg ra (s.reg ra / s.reg rb)).advance 3) := by
  by_cases h : s.reg rb = 0#8
  · rw [execDiv, State.aluInstr_error s .divide ra rb (by simp [aluResult, aluDz, h]), if_pos h,
      State.finish_error]
  · rw [execDiv, State.aluInstr_ok s .divide ra rb (s.reg ra / s.reg rb)
      (by simp [aluResult, aluDz, h]), if_neg h, State.finish_ok]

/-- PUSH faults exactly where SP = 0 (R162). -/
theorem execPush_eq (s : State) (ra : RegIndex) :
    execPush ra s =
      if s.sp = 0#8 then .next (s.raise .outOfBoundsAccess)
      else .next (((s.setReg spIndex (s.sp - 1#8)).storeByte (s.sp - 1#8)
        ((s.setReg spIndex (s.sp - 1#8)).reg ra)).advance 2) := by
  by_cases h : s.sp = 0#8
  · simp only [execPush, State.spDown_of_zero s h, State.finish_error, if_pos h]
  · simp only [execPush, State.spDown_of_ne s h, State.finish_ok, if_neg h, State.reg_setReg_same]

/-- POP faults exactly where SP, after the register is written, is 255 (R163). -/
theorem execPop_eq (s : State) (ra : RegIndex) :
    execPop ra s =
      if (s.setReg ra (s.loadByte s.sp)).sp = 255#8 then .next (s.raise .outOfBoundsAccess)
      else .next (((s.setReg ra (s.loadByte s.sp)).setReg spIndex
        ((s.setReg ra (s.loadByte s.sp)).sp + 1#8)).advance 2) := by
  by_cases h : (s.setReg ra (s.loadByte s.sp)).sp = 255#8
  · simp only [execPop, State.spUp_of_max _ h, State.finish_error, if_pos h]
  · simp only [execPop, State.spUp_of_ne _ h, State.finish_ok, if_neg h]

/-- CALL faults exactly where its return address is no byte or SP = 0 (R164). -/
theorem execCall_eq (s : State) (ra : RegIndex) :
    execCall ra s =
      if s.pc + 2 > 255 ∨ s.sp = 0#8 then .next (s.raise .outOfBoundsAccess)
      else .next (((s.setReg spIndex (s.sp - 1#8)).storeByte (s.sp - 1#8)
        (BitVec.ofNat 8 (s.pc + 2))).setPc ((s.setReg spIndex (s.sp - 1#8)).reg ra).toNat) := by
  by_cases h : s.pc + 2 > 255
  · simp only [execCall, State.returnAddress, State.finish_error, h, true_or, if_true]
  · by_cases hz : s.sp = 0#8
    · simp only [execCall, State.returnAddress, if_neg h, State.push_of_zero s _ hz,
        State.finish_error, hz, or_true, if_true]
    · simp only [execCall, State.returnAddress, State.push_of_ne s _ hz, State.finish_ok,
        h, hz, or_self, if_false, State.jumpTarget, State.storeByte_reg]

/-- RET faults exactly where SP = 255 (R165). -/
theorem execRet_eq (s : State) :
    execRet s =
      if s.sp = 255#8 then .next (s.raise .outOfBoundsAccess)
      else .next (((s.setPc (s.loadByte s.sp).toNat).storeByte s.sp 0#8).setReg spIndex
        (s.sp + 1#8)) := by
  have hsp : ((s.setPc (s.loadByte s.sp).toNat).storeByte s.sp 0#8).sp = s.sp := rfl
  by_cases h : s.sp = 255#8
  · simp only [execRet, State.spUp_of_max _ (hsp.trans h), State.finish_error, if_pos h]
  · simp only [execRet, State.spUp_of_ne _ (fun e => h (hsp.symm.trans e)), State.finish_ok,
      if_neg h, hsp]

/-- IRET with its intended contract faults exactly where eight pops would take SP past 255 (R204). -/
theorem execIret_intended (s : State) (h : s.pIret = .intended) :
    execIret s = s.finish s.interruptReturn := by
  simp only [execIret, h]

/-- IRET in mode noop does nothing (R203). -/
theorem execIret_noop (s : State) (h : s.pIret = .noop) : execIret s = .next s := by
  simp only [execIret, h]

end Sys2Proof.Machine
end

