-- ==== Sys2Proof/Laws/Step.lean ====
section
/-! SUPPORT. What a step can do: one inversion lemma, over the phases' own. -/

namespace Sys2Proof.Machine

/-- A decode at PC is the instruction fetched (R95). -/
theorem State.fetch_ok (s : State) (i : Instr) :
    s.fetch = .ok i ↔ ∃ rest, decode (s.fetchBytes s.pc maxLength) = .ok (i, rest) := by
  unfold State.fetch
  split
  next j r h => constructor
                · intro e; cases e; exact ⟨r, h⟩
                · rintro ⟨rest, e⟩; rw [h] at e; cases e; rfl
  next e h => constructor
              · intro c; cases c
              · rintro ⟨rest, c⟩; rw [h] at c; cases c

/-- Phase C runs the instruction it fetches (R97). -/
theorem State.phaseC_of_fetch (s : State) (i : Instr) (h : s.fetch = .ok i) :
    s.phaseC = exec i s := by
  simp only [State.phaseC, h]

/-- A running core at an address runs phases B and C (R95). -/
theorem step_of_running (s : State) (hr : s.status = .running) (hpc : s.pc ≤ 255) :
    step s = s.pollClock.phasesBC := by
  have h : ¬ s.pc > 255 := by omega
  simp only [step, hr, State.runStep, State.phaseA, if_neg h]

/-- A running core past the last address faults in phase A (R96). -/
theorem step_of_past_end (s : State) (hr : s.status = .running) (hpc : 255 < s.pc) :
    step s = .next (s.raise .outOfBoundsAccess) := by
  have h : s.pc > 255 := hpc
  simp only [step, hr, State.runStep, State.phaseA, if_pos h]

/-- A core that has stopped takes no step (R94). -/
theorem step_of_stopped (s : State) (h : s.status ≠ .running) (t : State) : step s ≠ .next t := by
  unfold step
  split
  next e => exact absurd e h
  all_goals simp

/-- Everything a step to a next state can be (R95, R228): a fault of phase A, of phase B, of the
fetch, or an instruction run from the state phase B left. -/
theorem step_next (s t : State) (h : step s = .next t) :
    s.status = .running ∧
      ((255 < s.pc ∧ t = s.raise .outOfBoundsAccess) ∨
       (s.pc ≤ 255 ∧ s.pollClock.interruptDue ∧ s.sp.toNat < 8 ∧
          t = s.pollClock.raise .outOfBoundsAccess) ∨
       (s.pc ≤ 255 ∧ ∃ u, s.pollClock.phaseB = .ok u ∧
          ((∃ k, u.fetch = .error k ∧ t = u.raise k) ∨
           (∃ i, u.fetch = .ok i ∧ exec i u = .next t)))) := by
  have hr : s.status = .running := by
    by_contra hc; exact step_of_stopped s hc t h
  refine ⟨hr, ?_⟩
  by_cases hpc : 255 < s.pc
  · rw [step_of_past_end s hr hpc] at h
    cases h
    exact .inl ⟨hpc, rfl⟩
  · have hpc' : s.pc ≤ 255 := by omega
    rw [step_of_running s hr hpc'] at h
    refine .inr ?_
    unfold State.phasesBC at h
    split at h
    next k hk =>
      obtain ⟨e1, e2, e3⟩ := State.phaseB_error _ k hk
      subst e3
      cases h
      exact .inl ⟨hpc', e1, by simpa [State.sp] using e2, rfl⟩
    next u hu =>
      refine .inr ⟨hpc', u, hu, ?_⟩
      unfold State.phaseC at h
      split at h
      next k hk => cases h; exact .inl ⟨k, hk, rfl⟩
      next i hi => exact .inr ⟨i, hi, h⟩

/-- A fetch faults for an illegal byte or an address above 255 and for nothing else (R228). -/
theorem State.fetch_error (s : State) (k : FaultKind) (h : s.fetch = .error k) :
    k = .illegalOpcode ∨ k = .outOfBoundsAccess := by
  unfold State.fetch at h
  split at h
  · cases h
  next e _ => cases h; cases e <;> simp [decodeFault]

end Sys2Proof.Machine
end

