-- ==== Sys2Proof/Laws/Fetch.lean ====
section
/-! SUPPORT. What a fetch reads, by PC, and the instruction it gives, by opcode. -/

namespace Sys2Proof.Machine

theorem State.memGet_of_le (s : State) (a : Nat) (h : a ≤ 255) : s.memGet a = .ok (s.mem.read a) :=
  if_pos (Nat.lt_succ_of_le h)

theorem State.memGet_of_gt (s : State) (a : Nat) (h : 255 < a) :
    s.memGet a = .error .outOfBoundsAccess :=
  if_neg (Nat.not_lt.2 h)

theorem State.fetchBytes_succ (s : State) (a n : Nat) (h : a ≤ 255) :
    s.fetchBytes a (n + 1) = s.mem.read a :: s.fetchBytes (a + 1) n := by
  simp only [State.fetchBytes, State.memGet_of_le s a h]

theorem State.fetchBytes_past (s : State) (a n : Nat) (h : 255 < a) : s.fetchBytes a n = [] := by
  cases n with
  | zero => rfl
  | succ n => simp only [State.fetchBytes, State.memGet_of_gt s a h]

/-- Three bytes below the top of memory. -/
theorem State.fetchBytes_three (s : State) (a : Nat) (h : a ≤ 253) :
    s.fetchBytes a maxLength = [s.mem.read a, s.mem.read (a + 1), s.mem.read (a + 2)] := by
  rw [maxLength, s.fetchBytes_succ a 2 (by omega), s.fetchBytes_succ (a + 1) 1 (by omega),
    s.fetchBytes_succ (a + 2) 0 (by omega)]
  rfl

/-- Two bytes at address 254. -/
theorem State.fetchBytes_254 (s : State) :
    s.fetchBytes 254 maxLength = [s.mem.read 254, s.mem.read 255] := by
  rw [maxLength, s.fetchBytes_succ 254 2 (by omega), s.fetchBytes_succ 255 1 (by omega),
    s.fetchBytes_past _ _ (by omega)]

/-- One byte at address 255. -/
theorem State.fetchBytes_255 (s : State) : s.fetchBytes 255 maxLength = [s.mem.read 255] := by
  rw [maxLength, s.fetchBytes_succ 255 2 (by omega), s.fetchBytes_past _ _ (by omega)]

/-- The bytes a fetch reads begin with the opcode byte at PC. -/
theorem State.fetchBytes_head (s : State) (h : s.pc ≤ 255) :
    s.fetchBytes s.pc maxLength = s.mem.read s.pc :: s.fetchBytes (s.pc + 1) 2 :=
  s.fetchBytes_succ s.pc 2 h

/-- How a fetch at an address ends: an illegal byte, or its row's operands (R228). -/
theorem State.fetch_eq (s : State) (h : s.pc ≤ 255) :
    s.fetch = match opcodeShape (s.mem.read s.pc) with
      | none => .error .illegalOpcode
      | some sh => match decodeOperands sh (s.fetchBytes (s.pc + 1) 2) with
        | .ok (i, _) => .ok i
        | .error e => .error (decodeFault e) := by
  rw [State.fetch, State.fetchBytes_head s h]
  simp only [decode]
  cases opcodeShape (s.mem.read s.pc) <;> rfl

/-- How many operand bytes a fetch at PC can read. -/
theorem State.fetchBytes_operands_length (s : State) (h : s.pc ≤ 255) :
    (s.fetchBytes (s.pc + 1) 2).length = min 2 (255 - s.pc) := by
  rcases Nat.lt_or_ge s.pc 254 with h1 | h1
  · rw [s.fetchBytes_succ _ 1 (by omega), s.fetchBytes_succ _ 0 (by omega)]
    simp [State.fetchBytes]; omega
  · rcases Nat.lt_or_ge s.pc 255 with h2 | h2
    · rw [s.fetchBytes_succ _ 1 (by omega), s.fetchBytes_past _ _ (by omega)]
      simp; omega
    · rw [s.fetchBytes_past _ _ (by omega)]
      simp; omega

end Sys2Proof.Machine
end

