-- ==== Sys2Proof/Laws/PerInstr.lean ====
section
/-! SUPPORT. Facts about every instruction as syntax, one lemma per constructor. -/

namespace Sys2Proof.Laws.EncodingForm

/-- The encoder writes an instruction as the assembler does (R81, R92): well formed for its format,
and of its format's length. -/
def Statement (i : Instr) : Prop :=
  encodingOk i.format (encode i) = true ∧ (encode i).length = i.format.length

theorem nop : Statement .nop := ⟨rfl, rfl⟩
theorem hlt : Statement .hlt := ⟨rfl, rfl⟩
theorem ldi (ra : RegIndex) (imm8 : Byte) : Statement (.ldi ra imm8) :=
  ⟨registerByteOk_encodeReg ra, rfl⟩
theorem prn (ra : RegIndex) : Statement (.prn ra) :=
  ⟨registerByteOk_encodeReg ra, rfl⟩
theorem pra (ra : RegIndex) : Statement (.pra ra) :=
  ⟨registerByteOk_encodeReg ra, rfl⟩
theorem add (ra rb : RegIndex) : Statement (.add ra rb) :=
  ⟨Bool.and_eq_true_iff.mpr ⟨registerByteOk_encodeReg ra, registerByteOk_encodeReg rb⟩, rfl⟩
theorem mul (ra rb : RegIndex) : Statement (.mul ra rb) :=
  ⟨Bool.and_eq_true_iff.mpr ⟨registerByteOk_encodeReg ra, registerByteOk_encodeReg rb⟩, rfl⟩
theorem div (ra rb : RegIndex) : Statement (.div ra rb) :=
  ⟨Bool.and_eq_true_iff.mpr ⟨registerByteOk_encodeReg ra, registerByteOk_encodeReg rb⟩, rfl⟩
theorem comp (ra rb : RegIndex) : Statement (.comp ra rb) :=
  ⟨Bool.and_eq_true_iff.mpr ⟨registerByteOk_encodeReg ra, registerByteOk_encodeReg rb⟩, rfl⟩
theorem push (ra : RegIndex) : Statement (.push ra) :=
  ⟨registerByteOk_encodeReg ra, rfl⟩
theorem pop (ra : RegIndex) : Statement (.pop ra) :=
  ⟨registerByteOk_encodeReg ra, rfl⟩
theorem call (ra : RegIndex) : Statement (.call ra) :=
  ⟨registerByteOk_encodeReg ra, rfl⟩
theorem ret : Statement .ret := ⟨rfl, rfl⟩
theorem jmp (ra : RegIndex) : Statement (.jmp ra) :=
  ⟨registerByteOk_encodeReg ra, rfl⟩
theorem jeq (ra : RegIndex) : Statement (.jeq ra) :=
  ⟨registerByteOk_encodeReg ra, rfl⟩
theorem jne (ra : RegIndex) : Statement (.jne ra) :=
  ⟨registerByteOk_encodeReg ra, rfl⟩
theorem st (ra rb : RegIndex) : Statement (.st ra rb) :=
  ⟨Bool.and_eq_true_iff.mpr ⟨registerByteOk_encodeReg ra, registerByteOk_encodeReg rb⟩, rfl⟩
theorem inc : Statement .inc := ⟨rfl, rfl⟩
theorem inte : Statement .inte := ⟨rfl, rfl⟩
theorem iret : Statement .iret := ⟨rfl, rfl⟩

end Sys2Proof.Laws.EncodingForm
end

