-- ==== Sys2Proof/Tests/Slice0.lean ====
section
/-! SUPPORT. Tests against the spec's own words and vectors (95_test_vectors), and a witness for the
hypotheses of each statement. -/

namespace Sys2Proof.Tests

open Sys2Proof.Machine

/-- A reset machine with some registers and a PC of its own. -/
def machine (pc : Nat) (regs : List (RegIndex × Byte)) : State :=
  regs.foldl (fun s p => s.setReg p.1 p.2) (State.reset.setPc pc)

/-- A machine with bytes in memory from an address on. -/
def withBytes (s : State) (a : Nat) (bytes : List Byte) : State := s.placeBytes a bytes

/-- One thing read off the next state of an outcome. -/
def after {α : Type} (o : Host.Outcome State Fault Refusal) (f : State → α) : Option α :=
  match o with
  | .next t => some (f t)
  | .fault _ => none
  | .refused _ => none

/-- One thing read off the state a phase ends in. -/
def okay {α : Type} (r : Except FaultKind State) (f : State → α) : Option α :=
  match r with
  | .ok t => some (f t)
  | .error _ => none

/-! ## Encoding, written out bit by bit from the opcode table (R81, R87) -/

theorem test_decode_nop : decode [0b00000000#8] = .ok (.nop, []) := by decide
theorem test_decode_hlt : decode [0b00000001#8] = .ok (.hlt, []) := by decide
theorem test_decode_ldi : decode [0b10000010#8, 0b00000011#8, 0b10011100#8] = .ok (.ldi 3#3 0x9C#8, []) := by decide
theorem test_decode_prn : decode [0b01000111#8, 0b00000010#8] = .ok (.prn 2#3, []) := by decide
theorem test_decode_pra : decode [0b01001000#8, 0b00000001#8] = .ok (.pra 1#3, []) := by decide
theorem test_decode_add : decode [0b10100000#8, 0b00000111#8, 0b00000001#8] = .ok (.add 7#3 1#3, []) := by decide
theorem test_decode_mul : decode [0b10100010#8, 0b00000011#8, 0b00000100#8] = .ok (.mul 3#3 4#3, []) := by decide
theorem test_decode_div : decode [0b10100011#8, 0b00000000#8, 0b00000111#8] = .ok (.div 0#3 7#3, []) := by decide
theorem test_decode_comp : decode [0b10100111#8, 0b00000010#8, 0b00000101#8] = .ok (.comp 2#3 5#3, []) := by decide
theorem test_decode_push : decode [0b01000101#8, 0b00000110#8] = .ok (.push 6#3, []) := by decide
theorem test_decode_pop : decode [0b01000110#8, 0b00000010#8] = .ok (.pop 2#3, []) := by decide
theorem test_decode_call : decode [0b01010000#8, 0b00000010#8] = .ok (.call 2#3, []) := by decide
theorem test_decode_ret : decode [0b00010001#8] = .ok (.ret, []) := by decide
theorem test_decode_jmp : decode [0b01010100#8, 0b00000100#8] = .ok (.jmp 4#3, []) := by decide
theorem test_decode_jeq : decode [0b01010101#8, 0b00000011#8] = .ok (.jeq 3#3, []) := by decide
theorem test_decode_jne : decode [0b01010110#8, 0b00000101#8] = .ok (.jne 5#3, []) := by decide
theorem test_decode_st : decode [0b10000100#8, 0b00000001#8, 0b00000000#8] = .ok (.st 1#3 0#3, []) := by decide
theorem test_decode_inc : decode [0b01100101#8] = .ok (.inc, []) := by decide
theorem test_decode_inte : decode [0b01010010#8] = .ok (.inte, []) := by decide
theorem test_decode_iret : decode [0b00010011#8] = .ok (.iret, []) := by decide

/-- V5, V104: bits 7 to 3 of a register operand byte are ignored. -/
theorem test_decode_high_bits : decode [0x82#8, 0xFB#8, 0x07#8] = .ok (.ldi 3#3 0x07#8, []) := by
  decide
/-- V100 to V103: SUB and LD of the related instruction set, 0xFF and 0x02 are illegal. -/
theorem test_decode_illegal : [0xA1#8, 0x83#8, 0xFF#8, 0x02#8].map (fun b => decode [b]) =
    List.replicate 4 (.error .illegalOpcode) := by decide
theorem test_decode_short : decode [0xA3#8, 0x00#8] = .error .operandMissing := by decide
/-- E1's word, numbered as the opcode table numbers its bits. -/
theorem test_table_word : decodeTableWord 24 0x9C0382 = some (.ldi 3#3 0x9C#8) := by decide
theorem test_table_word_short : decodeTableWord 8 0x47 = some (.prn 0#3) := by decide
theorem test_with_fetch_word :
    step (State.reset.withFetchWord 24 0x9C0382) =
      exec (.ldi 3#3 0x9C#8) (State.reset.withFetchWord 24 0x9C0382) := rfl

/-! ## Ill-formed terms, each refused by its check -/

theorem test_wf_register_byte : registerByteOk 0x08#8 = false := by decide
theorem test_wf_n : encodingOk .n [0x00#8, 0x00#8] = false := by decide
theorem test_wf_r : encodingOk .r [0x47#8, 0xFB#8] = false := by decide
theorem test_wf_r_length : encodingOk .r [0x47#8] = false := by decide
theorem test_wf_rr_first : encodingOk .rr [0xA0#8, 0x80#8, 0x01#8] = false := by decide
theorem test_wf_rr_second : encodingOk .rr [0xA0#8, 0x00#8, 0x0F#8] = false := by decide
theorem test_wf_rr_length : encodingOk .rr [0xA0#8, 0x00#8] = false := by decide
theorem test_wf_ri : encodingOk .ri [0x82#8, 0x10#8, 0xFF#8] = false := by decide
theorem test_wf_ri_length : encodingOk .ri [0x82#8, 0x00#8] = false := by decide
theorem test_wf_load : loadFits 0xFF#8 2 = false := by decide

/-! ## One step each, from the spec's vectors -/

/-- V1. -/
theorem test_nop_advances :
    after (exec .nop State.reset) (·.pc) = some 1 := by
  decide
/-- V2. -/
theorem test_nop_past_end :
    after (exec .nop (machine 255 [])) (·.pc) = some 256 := by
  decide
/-- V3. -/
theorem test_hlt :
    after (exec .hlt (machine 5 [])) (fun t => (t.status, t.pc)) = some (.halted, 5) := by
  decide
/-- V4. -/
theorem test_ldi :
    after (exec (.ldi 0#3 0xFF#8) State.reset) (fun t => (t.reg 0#3, t.pc)) = some (0xFF#8, 3) := by
  decide
/-- V6. -/
theorem test_ldi_sp :
    after (exec (.ldi 7#3 0x10#8) State.reset) (·.sp) = some 0x10#8 := by
  decide
/-- V8. -/
theorem test_prn :
    after (exec (.prn 2#3) (machine 0 [(2#3, 0xFF#8)])) (·.output) = some [⟨.decimal, 255#8⟩] := by
  decide
/-- V9. -/
theorem test_prn_sp :
    after (exec (.prn 7#3) State.reset) (·.output) = some [⟨.decimal, 244#8⟩] := by
  decide
/-- V10. -/
theorem test_pra :
    after (exec (.pra 1#3) (machine 0 [(1#3, 0x41#8)])) (·.output) = some [⟨.char, 0x41#8⟩] := by
  decide
/-- V11. -/
theorem test_pra_high :
    after (exec (.pra 1#3) (machine 0 [(1#3, 0xC8#8)])) (·.output) = some [⟨.char, 0xC8#8⟩] := by
  decide
/-- V22, V24. -/
theorem test_alu_add :
    [aluResult .add 0xC8#8 0x64#8, aluResult .add 0xFF#8 0xFF#8] = [some 0x2C#8, some 0xFE#8] := by
  decide
/-- V27, V28. -/
theorem test_alu_subtract :
    [aluResult .subtract 0x03#8 0x05#8, aluResult .subtract 0x00#8 0x01#8] = [some 0xFE#8, some 0xFF#8] := by
  decide
/-- V32, V34. -/
theorem test_alu_multiply :
    [aluResult .multiply 0xFF#8 0xFF#8, aluResult .multiply 0x03#8 0x56#8] = [some 0x01#8, some 0x02#8] := by
  decide
/-- V36, V38, V39d. -/
theorem test_alu_divide :
    [aluResult .divide 0x64#8 0x07#8, aluResult .divide 0xFF#8 0x01#8, aluResult .divide 0#8 0#8] = [some 0x0E#8, some 0xFF#8, none] := by
  decide
/-- V47. -/
theorem test_add_wraps :
    after (exec (.add 0#3 1#3) (machine 0 [(0#3, 0xC8#8), (1#3, 0x64#8)])) (fun t => (t.reg 0#3, t.pc)) = some (0x2C#8, 3) := by
  decide
/-- V48. -/
theorem test_add_same :
    after (exec (.add 2#3 2#3) (machine 0 [(2#3, 0x90#8)])) (·.reg 2#3) = some 0x20#8 := by
  decide
/-- V50. -/
theorem test_mul_low :
    after (exec (.mul 0#3 1#3) (machine 0 [(0#3, 0x10#8), (1#3, 0x10#8)])) (·.reg 0#3) = some 0#8 := by
  decide
/-- V51. -/
theorem test_mul_same :
    after (exec (.mul 3#3 3#3) (machine 0 [(3#3, 0xFF#8)])) (·.reg 3#3) = some 1#8 := by
  decide
/-- V52. -/
theorem test_div :
    after (exec (.div 0#3 1#3) (machine 0 [(0#3, 0x64#8), (1#3, 0x07#8)])) (fun t => (t.reg 0#3, t.reg 1#3, t.pc)) = some (0x0E#8, 0x07#8, 3) := by
  decide
/-- V54. -/
theorem test_div_zero :
    after (exec (.div 2#3 2#3) State.reset) (·.status) = some (.faulted .divisionByZero) := by
  decide
/-- V43. -/
theorem test_comp_less_unsigned :
    after (exec (.comp 0#3 1#3) (machine 0 [(1#3, 0xFF#8)])) (·.fl) = some 0b100#3 := by
  decide
/-- V44. -/
theorem test_comp_greater_unsigned :
    after (exec (.comp 0#3 1#3) (machine 0 [(0#3, 0x80#8), (1#3, 0x7F#8)])) (·.fl) = some 0b010#3 := by
  decide
/-- V45. -/
theorem test_comp_equal :
    after (exec (.comp 2#3 2#3) (machine 0 [(2#3, 9#8)])) (·.fl) = some 0b001#3 := by
  decide
/-- V60. -/
theorem test_push :
    after (exec (.push 1#3) (machine 0 [(1#3, 5#8)])) (fun t => (t.sp, t.loadByte 0xF3#8, t.pc)) = some (0xF3#8, 5#8, 2) := by
  decide
/-- V63. -/
theorem test_push_sp :
    after (exec (.push 7#3) State.reset) (fun t => (t.sp, t.loadByte 0xF3#8)) = some (0xF3#8, 0xF3#8) := by
  decide
/-- V64. -/
theorem test_pop :
    after (exec (.pop 2#3) (withBytes (machine 0 [(7#3, 0xF3#8)]) 0xF3 [5#8])) (fun t => (t.reg 2#3, t.sp, t.loadByte 0xF3#8)) = some (5#8, 0xF4#8, 5#8) := by
  decide
/-- V67. -/
theorem test_pop_sp :
    after (exec (.pop 7#3) (withBytes (machine 0 [(7#3, 0xF3#8)]) 0xF3 [0x10#8])) (·.sp) = some 0x11#8 := by
  decide
/-- V69. -/
theorem test_call :
    after (exec (.call 2#3) (machine 9 [(2#3, 0x0E#8)])) (fun t => (t.sp, t.loadByte 0xF3#8, t.pc)) = some (0xF3#8, 0x0B#8, 0x0E) := by
  decide
/-- V69a. -/
theorem test_call_sp :
    after (exec (.call 7#3) (machine 0x10 [])) (fun t => (t.loadByte 0xF3#8, t.pc)) = some (0x12#8, 0xF3) := by
  decide
/-- V69e. -/
theorem test_ret :
    after (exec .ret (withBytes (machine 0 [(7#3, 0xF3#8)]) 0xF3 [0x0B#8])) (fun t => (t.pc, t.loadByte 0xF3#8, t.sp)) = some (0x0B, 0#8, 0xF4#8) := by
  decide
/-- V69g. -/
theorem test_ret_clears_vector :
    after (exec .ret (withBytes (machine 0 [(7#3, 0xF8#8)]) 0xF8 [0x20#8])) (fun t => (t.pc, t.loadByte 0xF8#8, t.sp)) = some (0x20, 0#8, 0xF9#8) := by
  decide
/-- V69h. -/
theorem test_jmp :
    after (exec (.jmp 2#3) (machine 0x0F [(2#3, 0x0F#8)])) (·.pc) = some 0x0F := by
  decide
/-- V70. -/
theorem test_jeq_taken :
    after (exec (.jeq 3#3) ((machine 0x20 [(3#3, 0x0C#8)]).setFl 0b001#3)) (·.pc) = some 0x0C := by
  decide
/-- V71. -/
theorem test_jeq_falls :
    after (exec (.jeq 3#3) ((machine 0x20 [(3#3, 0x0C#8)]).setFl 0b100#3)) (·.pc) = some 0x22 := by
  decide
/-- V73. -/
theorem test_jne_falls :
    after (exec (.jne 3#3) ((machine 0x20 [(3#3, 0x0C#8)]).setFl 0b001#3)) (·.pc) = some 0x22 := by
  decide
/-- V75. -/
theorem test_jne_taken :
    after (exec (.jne 3#3) (machine 0x20 [(3#3, 0x0C#8)])) (·.pc) = some 0x0C := by
  decide
/-- V80. -/
theorem test_st_vector :
    after (exec (.st 1#3 0#3) (machine 0 [(1#3, 0xF8#8), (0#3, 0x20#8)])) (fun t => (t.loadByte 0xF8#8, t.pc)) = some (0x20#8, 3) := by
  decide
/-- V81. -/
theorem test_st_same :
    after (exec (.st 7#3 7#3) State.reset) (·.mem) = some [(0xF4, 0xF4#8)] := by
  decide
/-- V90. -/
theorem test_inc_nothing :
    after (exec .inc State.reset) (fun t => decide (t = State.reset)) = some true := by
  decide
/-- V91. -/
theorem test_inte_nothing :
    after (exec .inte State.reset) (fun t => decide (t = State.reset)) = some true := by
  decide
/-- V92. -/
theorem test_iret_noop :
    after (exec .iret (machine 0 [(7#3, 0xEC#8)])) (fun t => (t.pc, t.sp, t.ien)) = some (0, 0xEC#8, true) := by
  decide
/-- V94. -/
theorem test_iret_intended :
    after (exec .iret (withBytes ((State.initial .intended 0).setReg 7#3 0xF7#8) 0xFD [0x07#8, 0x33#8])) (fun t => (t.fl, t.pc, t.sp, t.ien)) = some (0b111#3, 0x33, 0xFF#8, true) := by
  decide

/-! ## Faults, at the boundary of each case of the spec's table (R224) -/

/-- V2. -/
theorem test_fault_phase_a :
    after (step (machine 256 [])) (·.status) =
      some (.faulted .outOfBoundsAccess) := by
  decide
/-- V12. -/
theorem test_fault_two_byte_at_255 :
    after (step (withBytes (machine 255 []) 255 [0x47#8])) (·.status) =
      some (.faulted .outOfBoundsAccess) := by
  decide
/-- V7, V56. -/
theorem test_fault_three_byte_at_254 :
    after (step (withBytes (machine 254 []) 254 [0xA3#8, 0x00#8])) (·.status) =
      some (.faulted .outOfBoundsAccess) := by
  decide
/-- R85. -/
theorem test_fault_three_byte_at_255 :
    after (step (withBytes (machine 255 []) 255 [0x82#8])) (·.status) =
      some (.faulted .outOfBoundsAccess) := by
  decide
/-- V61. -/
theorem test_fault_push_zero :
    after (step (withBytes (machine 0 [(7#3, 0#8)]) 0 [0x45#8, 0x01#8])) (·.status) =
      some (.faulted .outOfBoundsAccess) := by
  decide
/-- V66. -/
theorem test_fault_pop_max :
    after (step (withBytes (machine 0 [(7#3, 0xFF#8)]) 0 [0x46#8, 0x02#8])) (·.status) =
      some (.faulted .outOfBoundsAccess) := by
  decide
/-- V68. -/
theorem test_fault_pop_sp_max :
    after (step (withBytes (withBytes (machine 0 [(7#3, 0xF3#8)]) 0xF3 [0xFF#8]) 0 [0x46#8, 0x07#8])) (·.status) =
      some (.faulted .outOfBoundsAccess) := by
  decide
/-- V69f. -/
theorem test_fault_ret_max :
    after (step (withBytes (machine 0 [(7#3, 0xFF#8)]) 0 [0x11#8])) (·.status) =
      some (.faulted .outOfBoundsAccess) := by
  decide
/-- V69b. -/
theorem test_fault_call_at_254 :
    after (step (withBytes (machine 254 []) 254 [0x50#8, 0x02#8])) (·.status) =
      some (.faulted .outOfBoundsAccess) := by
  decide
/-- V69d. -/
theorem test_fault_call_zero :
    after (step (withBytes (machine 0 [(7#3, 0#8)]) 0 [0x50#8, 0x02#8])) (·.status) =
      some (.faulted .outOfBoundsAccess) := by
  decide
/-- V95. -/
theorem test_fault_iret_248 :
    after (step (withBytes ((State.initial .intended 0).setReg 7#3 0xF8#8) 0 [0x13#8])) (·.status) =
      some (.faulted .outOfBoundsAccess) := by
  decide
/-- V100. -/
theorem test_fault_illegal :
    after (step (withBytes State.reset 0 [0xA1#8])) (·.status) =
      some (.faulted .illegalOpcode) := by
  decide
/-- V53. -/
theorem test_fault_division :
    after (step (withBytes (machine 6 [(0#3, 0x64#8)]) 6 [0xA3#8, 0x00#8, 0x01#8]))
      (fun t => (t.status, t.reg 0#3, t.pc)) = some (.faulted .divisionByZero, 0x64#8, 6) := by
  decide
/-- V62: a push to address 0. -/
theorem test_push_to_zero :
    after (exec (.push 1#3) (machine 0 [(7#3, 1#8), (1#3, 5#8)])) (·.mem) = some [(0, 5#8)] := by
  decide
/-- V69c: the highest CALL whose return address is a byte. -/
theorem test_call_at_253 :
    after (exec (.call 2#3) (machine 253 [(2#3, 0x40#8)])) (fun t => (t.loadByte 0xF3#8, t.pc)) =
      some (0xFF#8, 0x40) := by
  decide
theorem test_fault_codes : [FaultKind.illegalOpcode, .outOfBoundsAccess, .divisionByZero,
    .invalidRegister].map FaultKind.code = [1, 2, 3, 4] := by decide

/-! ## The interrupt check, with 1000 clock units in a second (V110 to V120) -/

/-- The machine of V113. -/
def v113 : State :=
  (withBytes (machine 0x30 [(5#3, 1#8), (0#3, 0x10#8), (1#3, 0x11#8), (2#3, 0x12#8), (3#3, 0x13#8),
    (4#3, 0x14#8)]) 0xF8 [0x40#8]).setFl 0b010#3

/-- V113. -/
theorem test_entry :
    okay (v113.interruptCheck 1000 1000) (fun t => (t.mem, t.sp, t.is, t.ien, t.lt, t.pc)) =
      some ([(0xEC, 0x01#8), (0xED, 0x14#8), (0xEE, 0x13#8), (0xEF, 0x12#8), (0xF0, 0x11#8),
        (0xF1, 0x10#8), (0xF2, 0x02#8), (0xF3, 0x30#8), (0xF8, 0x40#8)], 0xEC#8, 0#8, false, 1000,
        0x40) := by
  decide
/-- V112: not due. -/
theorem test_not_due : okay (v113.interruptCheck 1000 999) (·.pc) = some 0x30 := by decide
/-- V111: latched off. -/
theorem test_latched : okay ((v113.setIen false).interruptCheck 1000 5000) (·.pc) = some 0x30 := by
  decide
/-- V114: IM[0] = 0. -/
theorem test_masked : okay ((v113.setReg 5#3 0xFE#8).interruptCheck 1000 5000) (·.pc) = some 0x30 := by
  decide
/-- V116: no room. -/
theorem test_entry_no_room :
    okay ((v113.setReg 7#3 7#8).interruptCheck 1000 1000) (·.pc) = none := by decide
/-- V117: just room. -/
theorem test_entry_room :
    okay ((v113.setReg 7#3 8#8).interruptCheck 1000 1000) (fun t => (t.sp, t.loadByte 7#8)) =
      some (0#8, 0x30#8) := by
  decide
/-- V118: the vector overwritten by the push of R1. -/
theorem test_entry_vector_overwritten :
    okay (((v113.setReg 7#3 0xFC#8).setReg 1#3 0x40#8).interruptCheck 1000 1000) (·.pc) =
      some 0x40 := by
  decide

/-! ## Witnesses: states that meet the hypotheses of each statement -/

/-- A machine whose timer interrupt is due: armed, the clock one second past LT. -/
def dueMachine (p : PIret) (sp : Byte) : State :=
  { ((State.initial p 0).setReg 5#3 1#8).setReg 7#3 sp with clock := (Config.oneSecond : Int) }

theorem dueMachine_im (p : PIret) (sp : Byte) : (dueMachine p sp).im = 1#8 :=
  (State.reg_setReg_ne ((State.initial p 0).setReg 5#3 1#8) 7#3 5#3 sp (by decide)).trans
    (State.reg_setReg_same _ _ _)

theorem notFaulted_of_running (s : State) (h : s.status = .running) : s.NotFaulted :=
  fun k e => by rw [h] at e; cases e

theorem dueMachine_sp (p : PIret) (sp : Byte) : (dueMachine p sp).sp = sp :=
  State.reg_setReg_same ((State.initial p 0).setReg 5#3 1#8) 7#3 sp

theorem dueMachine_due (p : PIret) (sp : Byte) : (dueMachine p sp).interruptDue :=
  ⟨rfl, by rw [dueMachine_im]; rfl, by
    show (Config.oneSecond : Int) - 0 ≥ Config.oneSecond; omega⟩

theorem dueMachine_armed (p : PIret) (sp : Byte) : (dueMachine p sp).armed = true :=
  ((State.interruptDue_iff _).1 (dueMachine_due p sp)).1

theorem dueMachine_poll_due (p : PIret) (sp : Byte) : (dueMachine p sp).pollClock.interruptDue := by
  rw [State.pollClock_of_armed _ (dueMachine_armed p sp)]
  refine ⟨rfl, (dueMachine_due p sp).2.1, ?_⟩
  show (Config.oneSecond : Int) + (Config.clockAdvance 0 : Int) - 0 ≥ Config.oneSecond
  omega

theorem dueMachine_enters (p : PIret) (sp : Byte) (h : 8 ≤ sp.toNat) :
    ∃ t, (dueMachine p sp).phaseB = .ok t := by
  rw [State.phaseB_of_due _ (dueMachine_due p sp)]
  exact State.interruptEntry_ok _ _ (by rw [dueMachine_sp]; exact h)

/-- A step that takes the interrupt and then runs the NOP at address 0, where an empty vector points. -/
theorem dueMachine_step : ∃ u, RunsFrom (dueMachine .noop 0xF4#8) u .nop ∧
    step (dueMachine .noop 0xF4#8) = .next (u.advance 1) ∧ u.ien = false ∧
    u.lt = (dueMachine .noop 0xF4#8).pollClock.clock ∧
    u.status = (dueMachine .noop 0xF4#8).pollClock.status := by
  obtain ⟨u, hu⟩ := State.interruptEntry_ok (dueMachine .noop 0xF4#8).pollClock
    (dueMachine .noop 0xF4#8).pollClock.clock (by
      rw [State.sp, State.pollClock_reg, ← State.sp, dueMachine_sp]; decide)
  have hB : (dueMachine .noop 0xF4#8).pollClock.phaseB = .ok u := by
    rw [State.phaseB_of_due _ (dueMachine_poll_due _ _), hu]
  have E := State.interruptEntry_spec _ _ _ hu
  have hsp : (dueMachine .noop 0xF4#8).pollClock.sp.toNat = 0xF4 := by
    rw [State.sp, State.pollClock_reg, ← State.sp, dueMachine_sp]; decide
  have hm : ∀ a, a < 0xEC ∨ 0xF4 ≤ a → u.mem.read a = 0#8 := by
    intro a ha
    rw [E.mem a (by rw [hsp]; omega), State.pollClock_mem]
    rfl
  have hpc : u.pc = 0 := by
    rw [E.pc, State.loadByte, hm _ (by decide)]; rfl
  have hd : decode (u.fetchBytes u.pc maxLength) = .ok (.nop, u.fetchBytes (u.pc + 1) 2) := by
    rw [State.fetchBytes_head u (by omega), hpc, hm 0 (by omega)]
    rfl
  have hf : u.fetch = .ok .nop := (State.fetch_ok _ _).2 ⟨_, hd⟩
  refine ⟨u, ⟨by decide, hB, _, hd⟩, ?_, E.ien, E.lt, E.status⟩
  rw [step_of_running _ rfl (by decide)]
  simp only [State.phasesBC, hB, State.phaseC, hf]
  rfl

/-- A machine that is armed and whose interrupt is not due at the next clock reading. -/
def waitingMachine : State :=
  { (State.reset.setReg 5#3 1#8) with lt := (Config.clockAdvance 0 : Int) }

/-- DecodeOfEncode has no hypothesis; EncodeOfDecode's are met by ADD's bytes. -/
theorem witness_EncodeOfDecode : ∃ bs i rest, decode bs = .ok (i, rest) ∧
    encodingOk i.format (bs.take i.format.length) = true :=
  ⟨[0xA0#8, 0x07#8, 0x01#8, 0xFF#8], .add 7#3 1#3, [0xFF#8], by decide, by decide⟩

theorem witness_OperandHighBitsIgnored_ldi : regOperand 0x03#8 = regOperand 0xFB#8 ∧
    (0x82#8 = 0x82#8 → 0xFF#8 = 0xFF#8) ∧
    (0x82#8 ≠ 0x82#8 → regOperand 0xFF#8 = regOperand 0xFF#8) := by decide
theorem witness_OperandHighBitsIgnored_other : regOperand 0x03#8 = regOperand 0xFB#8 ∧
    (0xA0#8 = 0x82#8 → 0x01#8 = 0xF9#8) ∧
    (0xA0#8 ≠ 0x82#8 → regOperand 0x01#8 = regOperand 0xF9#8) := by decide

theorem witness_LengthFromOpcode : decode [0x47#8, 0x01#8] = .ok (.prn 1#3, []) ∧
    decode [0x47#8, 0x02#8, 0x05#8] = .ok (.prn 2#3, [0x05#8]) := by decide

/-- At reset memory is zero, so a NOP runs. -/
theorem reset_runs_nop : RunsFrom State.reset State.reset .nop :=
  ⟨by decide, rfl, _, rfl⟩

theorem witness_StepRunsDecoded : State.reset.status = .running ∧
    RunsFrom State.reset State.reset .nop ∧ State.reset.pc ≤ 255 ∧ State.reset.armed = false ∧
    decode (State.reset.fetchBytes State.reset.pc maxLength) = .ok (.nop, [0#8, 0#8]) :=
  ⟨rfl, reset_runs_nop, by decide, rfl, by decide⟩

/-- The first clause also where an interrupt is taken: the instruction runs from the state after. -/
theorem witness_StepRunsDecoded_entry : ∃ u i, RunsFrom (dueMachine .noop 0xF4#8) u i :=
  have ⟨u, h, _⟩ := dueMachine_step
  ⟨u, .nop, h⟩

theorem witness_PhaseAFaultsPastEnd : (machine 256 []).status = .running ∧ 255 < (machine 256 []).pc := by
  decide

/-- The hypotheses of OperandFetchFaults, for any opcode byte of either length. -/
theorem witness_OperandFetchFaults : ∀ op ∈ twoByteOpcodes ++ threeByteOpcodes,
    (withBytes (machine 255 []) 255 [op]).pc ≤ 255 ∧
    255 < (withBytes (machine 255 []) 255 [op]).pc + (2 - 1) ∧
    (withBytes (machine 255 []) 255 [op]).mem.read 255 = op := by decide
theorem witness_OperandFetchFaults_254 : ∀ op ∈ threeByteOpcodes,
    (withBytes (machine 254 []) 254 [op]).pc ≤ 255 ∧
    255 < (withBytes (machine 254 []) 254 [op]).pc + (3 - 1) ∧
    (withBytes (machine 254 []) 254 [op]).mem.read 254 = op := by decide

/-- A step to a next state: the hypothesis of the whole-machine rules. -/
theorem witness_step_next : step State.reset = .next (State.reset.advance 1) := rfl

/-- FaultKeepsOutput: a step to a faulted state. -/
theorem witness_FaultKeepsOutput : step (machine 256 []) =
      .next ((machine 256 []).raise .outOfBoundsAccess) ∧
    ((machine 256 []).raise .outOfBoundsAccess).status = .faulted .outOfBoundsAccess :=
  ⟨rfl, rfl⟩

/-- HaltOnlyByHlt: a step to a halted state. -/
theorem witness_HaltOnlyByHlt : ∃ t, step (withBytes State.reset 0 [0x01#8]) = .next t ∧
    t.status = .halted := ⟨_, rfl, rfl⟩

theorem witness_LoadCopiesBytes : (0xFE#8).toNat + [1#8, 2#8].length ≤ 256 ∧
    256 < (0xFF#8).toNat + [1#8, 2#8].length := by decide
theorem witness_StartAtZero : (0x10#8).toNat + [1#8].length ≤ 256 ∧ [1#8].length ≤ 256 := by
  decide
/-- A load with no address given goes to address 0 (R68). -/
theorem test_load_default : (State.reset.load [0x82#8, 0x01#8]).map (·.mem) =
    some [(0, 0x82#8), (1, 0x01#8)] := by decide

theorem reset_inv : State.reset.Inv := by
  refine ⟨rfl, by decide, by decide⟩
theorem witness_StepKeepsInvariant : State.reset.Inv ∧
    step State.reset = .next (State.reset.advance 1) := ⟨reset_inv, rfl⟩
theorem witness_StepKeepsFlagsExclusive : State.reset.pIret = .noop ∧ State.reset.FlagsExclusive ∧
    step State.reset = .next (State.reset.advance 1) ∧ (State.reset.advance 1).NotFaulted :=
  ⟨rfl, .inl rfl, rfl, notFaulted_of_running _ rfl⟩
theorem witness_LatchStaysClearInNoopMode : (State.reset.setIen false).pIret = .noop ∧
    (State.reset.setIen false).ien = false ∧
    step (State.reset.setIen false) = .next ((State.reset.setIen false).advance 1) ∧
    ((State.reset.setIen false).advance 1).NotFaulted :=
  ⟨rfl, rfl, rfl, notFaulted_of_running _ rfl⟩

/-- FlagsWrittenOnlyByComp: a step that changes FL. -/
theorem witness_FlagsWrittenOnlyByComp :
    ∃ t, step (withBytes State.reset 0 [0xA7#8]) = .next t ∧
      t.NotFaulted ∧ t.fl ≠ (withBytes State.reset 0 [0xA7#8]).fl :=
  ⟨_, rfl, notFaulted_of_running _ rfl, by decide⟩

/-- LastTimeWrittenOnlyByEntry and the first clause of LatchWritersOnly: an entry changes LT and
clears IEN. -/
theorem witness_entry_step : ∃ t, step (dueMachine .noop 0xF4#8) = .next t ∧ t.NotFaulted ∧
    (dueMachine .noop 0xF4#8).ien = true ∧ t.ien = false ∧ t.lt ≠ (dueMachine .noop 0xF4#8).lt := by
  obtain ⟨u, -, hs, hi, hl, hst⟩ := dueMachine_step
  refine ⟨_, hs, notFaulted_of_running _ (hst.trans rfl), rfl, hi, ?_⟩
  rw [State.advance_lt, hl, State.pollClock_of_armed _ (dueMachine_armed _ _)]
  show (Config.oneSecond : Int) + (Config.clockAdvance 0 : Int) ≠ 0
  have : Config.oneSecond = Config.oneSecondPred + 1 := rfl
  omega

/-- The second clause of LatchWritersOnly: IRET with its intended contract sets IEN. -/
theorem witness_LatchWritersOnly_iret :
    after (step (withBytes (((State.initial .intended 0).setIen false).setReg 7#3 0xEC#8) 0
      [0x13#8])) (·.ien) = some true := by decide

theorem witness_RegisterWriters : exec .nop State.reset = .next (State.reset.advance 1) ∧
    (State.reset.advance 1).NotFaulted ∧
    State.reset.phaseB = .ok State.reset ∧ ¬ State.reset.interruptDue :=
  ⟨rfl, notFaulted_of_running _ rfl, rfl, fun h => absurd h.2.1 (by decide)⟩
/-- MemoryWriters: an address beside the one PUSH stores to, and one outside an entry's stack. -/
theorem witness_MemoryWriters : ∃ t, exec (.push 1#3) State.reset = .next t ∧ t.NotFaulted ∧
    ∀ b, storedAddress State.reset (.push 1#3) = some b → 0xF4 ≠ b.toNat :=
  ⟨_, rfl, notFaulted_of_running _ rfl, by intro b h; cases h; decide⟩
theorem witness_MemoryWriters_entry : ∃ t, (dueMachine .noop 0xF4#8).phaseB = .ok t ∧
    ((dueMachine .noop 0xF4#8).interruptDue → 0xEB < (dueMachine .noop 0xF4#8).sp.toNat - 8 ∨
      (dueMachine .noop 0xF4#8).sp.toNat ≤ 0xEB) := by
  obtain ⟨t, ht⟩ := dueMachine_enters .noop 0xF4#8 (by decide)
  exact ⟨t, ht, fun _ => by rw [dueMachine_sp]; decide⟩
theorem witness_MemoryContract : (255 < 256) ∧ (255 ≤ 255) := by decide
theorem witness_RegisterFileContract : (7 < 8) ∧ (7 ≤ 7) := by decide

theorem witness_InterruptEntrySavesContext : (dueMachine .noop 0x08#8).status = .running ∧
    (dueMachine .noop 0x08#8).pc ≤ 255 ∧ (dueMachine .noop 0x08#8).pollClock.interruptDue ∧
    8 ≤ (dueMachine .noop 0x08#8).sp.toNat :=
  ⟨rfl, by decide, dueMachine_poll_due _ _, by rw [dueMachine_sp]; decide⟩
theorem witness_InterruptEntryNeedsRoom : (dueMachine .noop 0x07#8).status = .running ∧
    (dueMachine .noop 0x07#8).pc ≤ 255 ∧ (dueMachine .noop 0x07#8).pollClock.interruptDue ∧
    (dueMachine .noop 0x07#8).sp.toNat < 8 :=
  ⟨rfl, by decide, dueMachine_poll_due _ _, by rw [dueMachine_sp]; decide⟩
theorem witness_NoInterruptUnlessDue_unarmed : State.reset.status = .running ∧
    State.reset.pc ≤ 255 ∧
    ¬ (State.reset.ien = true ∧ (State.reset.reg 5#3).getLsbD 0 = true) := by decide
theorem witness_NoInterruptUnlessDue_early : waitingMachine.status = .running ∧
    waitingMachine.pc ≤ 255 ∧ waitingMachine.ien = true ∧
    (waitingMachine.reg 5#3).getLsbD 0 = true ∧
    waitingMachine.now - waitingMachine.lt < (Config.oneSecond : Int) := by
  refine ⟨rfl, by decide, rfl, rfl, ?_⟩
  show (0 : Int) + (Config.clockAdvance 0 : Int) - (Config.clockAdvance 0 : Int) < Config.oneSecond
  have : Config.oneSecond = Config.oneSecondPred + 1 := rfl
  omega
theorem witness_InterruptIgnoresStatusAndHighMask : (dueMachine .noop 0xF4#8).interruptDue ∧
    (0xFF#8).getLsbD 0 = ((dueMachine .noop 0xF4#8).reg 5#3).getLsbD 0 :=
  ⟨dueMachine_due _ _, by rw [show (dueMachine .noop 0xF4#8).reg 5#3 = 1#8 from dueMachine_im _ _]; rfl⟩
/-- The clause of an entry, the fault's, and that of no interrupt with the high mask bits set. -/
theorem witness_InterruptIgnoresStatusAndHighMask_clauses :
    (∃ t, (dueMachine .noop 0x08#8).phaseB = .ok t) ∧
    (dueMachine .noop 0x07#8).interruptDue ∧
    ¬ State.reset.interruptDue ∧ (0xFE#8).getLsbD 0 = (State.reset.reg 5#3).getLsbD 0 :=
  ⟨dueMachine_enters _ _ (by decide), dueMachine_due _ _, fun h => absurd h.2.1 (by decide),
    by decide⟩
theorem witness_VectorReadAfterPushes (sp : Byte) (h : 249 ≤ sp.toNat) :
    (dueMachine .noop sp).interruptDue ∧ 249 ≤ (dueMachine .noop sp).sp.toNat ∧
    ∃ t, (dueMachine .noop sp).phaseB = .ok t :=
  ⟨dueMachine_due _ _, by rw [dueMachine_sp]; exact h, dueMachine_enters _ _ (by omega)⟩
theorem witness_VectorReadAfterPushes_ends : 249 ≤ (0xF9#8).toNat ∧ 249 ≤ (0xFF#8).toNat := by
  decide
theorem witness_IretUndoesEntry : (dueMachine .intended 0xF4#8).pIret = .intended ∧
    (dueMachine .intended 0xF4#8).pc ≤ 255 ∧ (dueMachine .intended 0xF4#8).interruptDue ∧
    ∃ t, (dueMachine .intended 0xF4#8).phaseB = .ok t :=
  ⟨rfl, by decide, dueMachine_due _ _, dueMachine_enters _ _ (by decide)⟩

theorem witness_DivFloorsOrFaults : (machine 0 [(1#3, 1#8)]).reg 1#3 ≠ 0#8 ∧
    (machine 0 [(1#3, 0#8)]).reg 1#3 = 0#8 := by decide
theorem witness_CompSetsOneFlag :
    ((machine 0 [(0#3, 3#8)]).reg 0#3).toNat = ((machine 0 [(1#3, 3#8)]).reg 1#3).toNat ∧
    ((machine 0 [(0#3, 3#8)]).reg 1#3).toNat < ((machine 0 [(0#3, 3#8)]).reg 0#3).toNat ∧
    ((machine 0 [(1#3, 3#8)]).reg 0#3).toNat < ((machine 0 [(1#3, 3#8)]).reg 1#3).toNat := by decide
theorem witness_PushStoresBelow : (machine 0 [(7#3, 1#8)]).sp ≠ 0#8 ∧
    (machine 0 [(7#3, 0#8)]).sp = 0#8 := by decide
theorem witness_PopLoadsTop : (2#3 ≠ 7#3) ∧ (machine 0 [(7#3, 254#8)]).sp ≠ 255#8 ∧
    (machine 0 [(7#3, 255#8)]).sp = 255#8 ∧
    (withBytes State.reset 0xF4 [254#8]).mem.read (withBytes State.reset 0xF4 [254#8]).sp.toNat ≠
      255#8 ∧
    (withBytes State.reset 0xF4 [255#8]).mem.read (withBytes State.reset 0xF4 [255#8]).sp.toNat =
      255#8 := by decide
theorem witness_CallPushesReturn : (machine 253 []).pc + 2 ≤ 255 ∧ (machine 253 []).sp ≠ 0#8 ∧
    255 < (machine 254 []).pc + 2 ∧ (machine 0 [(7#3, 0#8)]).sp = 0#8 := by decide
theorem witness_RetPopsAndClears : (machine 0 [(7#3, 254#8)]).sp ≠ 255#8 ∧
    (machine 0 [(7#3, 255#8)]).sp = 255#8 := by decide
theorem witness_jumps : (State.reset.setFl 0b001#3).fl.getLsbD 0 = true ∧
    (State.reset.setFl 0b110#3).fl.getLsbD 0 = false := by decide
theorem witness_ReservedDoNothing : State.reset.pIret = .noop ∧
    (withBytes (machine 255 []) 255 [0x65#8]).pc ≤ 255 ∧
    (withBytes (machine 255 []) 255 [0x65#8]).mem.read 255 = 0x65#8 ∧
    (withBytes (machine 255 []) 255 [0x52#8]).mem.read 255 = 0x52#8 ∧
    (withBytes (machine 255 []) 255 [0x13#8]).mem.read 255 = 0x13#8 ∧
    (withBytes (machine 255 []) 255 [0x13#8]).pIret = .noop := by decide
theorem witness_IretPopsContext : (State.initial .intended 0).pIret = .intended ∧
    ((State.initial .intended 0).setReg 7#3 247#8).sp.toNat ≤ 247 ∧
    247 < ((State.initial .intended 0).setReg 7#3 248#8).sp.toNat := by decide
theorem witness_PushPopRoundTrip : (1#3 ≠ 7#3) ∧ State.reset.sp ≠ 0#8 := by decide
theorem witness_CallThenRetReturns : ∃ t, (machine 253 []).pc + 2 ≤ 255 ∧
    (machine 253 []).sp ≠ 0#8 ∧ exec (.call 2#3) (machine 253 []) = .next t ∧ t.sp = t.sp ∧
    t.mem.read t.sp.toNat = t.mem.read t.sp.toNat := ⟨_, by decide, by decide, rfl, rfl, rfl⟩

end Sys2Proof.Tests
end

/-! SUPPORT. What an instruction that completes does to each part of the state, once for all 20
instructions. -/

namespace Sys2Proof

/-! ### The length of a decoded instruction (R80, R81) -/

/-- The row of a format makes instructions of that format (R81). -/
def Shape.HasFormats : Shape → Prop
  | .n i => i.format = .n
  | .r f => ∀ a, (f a).format = .r
  | .rr f => ∀ a b, (f a b).format = .rr
  | .ri f => ∀ a v, (f a v).format = .ri

theorem opcodeTable_hasFormats : ∀ row ∈ opcodeTable, row.2.HasFormats := by
  simp [opcodeTable, Shape.HasFormats, Instr.format]

/-- A row takes as many operand bytes as the format of its instruction has (R80, R81). -/
theorem decodeOperands_length (sh : Shape) (bs rest : List Byte) (i : Instr)
    (hsh : sh.HasFormats) (h : decodeOperands sh bs = .ok (i, rest)) :
    bs.length + 1 = rest.length + i.format.length := by
  cases sh with
  | n j =>
    cases h
    rw [show i.format = .n from hsh, Format.length]
  | r f =>
    match bs, h with
    | a :: bs, h => cases h; rw [show (f _).format = .r from hsh _]; rfl
  | rr f =>
    match bs, h with
    | a :: b :: bs, h => cases h; rw [show (f _ _).format = .rr from hsh _ _]; rfl
  | ri f =>
    match bs, h with
    | a :: v :: bs, h => cases h; rw [show (f _ _).format = .ri from hsh _ _]; rfl

/-- A decode takes exactly the bytes of its instruction's format (R80). -/
theorem decode_length (op : Byte) (bs rest : List Byte) (i : Instr)
    (h : decode (op :: bs) = .ok (i, rest)) : bs.length + 1 = rest.length + i.format.length := by
  cases hs : opcodeShape op with
  | none => simp [decode, hs] at h
  | some sh =>
    exact decodeOperands_length sh bs rest i
      (opcodeTable_hasFormats _ (mem_of_opcodeShape op sh hs)) (by simpa [decode, hs] using h)

end Sys2Proof

namespace Sys2Proof.Machine

/-- An instruction fetched lies inside memory with all its bytes (R85). -/
theorem State.fetch_fits (s : State) (i : Instr) (hpc : s.pc ≤ 255) (h : s.fetch = .ok i) :
    s.pc + i.format.length ≤ 256 := by
  obtain ⟨rest, hd⟩ := (s.fetch_ok i).1 h
  rw [s.fetchBytes_head hpc] at hd
  have hlen := decode_length _ _ _ _ hd
  rw [s.fetchBytes_operands_length hpc] at hlen
  omega

/-! ### The registers and the flags -/

theorem SameRegsBut.refl (rs : List RegIndex) (s : State) : SameRegsBut rs s s := fun _ _ => rfl

/-- A write of a listed register changes no register outside the list. -/
theorem SameRegsBut.setReg {rs : List RegIndex} {s t : State} (h : SameRegsBut rs s t)
    (r : RegIndex) (v : Byte) (hr : r ∈ rs) : SameRegsBut rs s (t.setReg r v) :=
  fun q hq => (State.reg_setReg_ne _ _ _ _ (ne_of_mem_of_not_mem hr hq).symm).trans (h q hq)

/-- The return from an interrupt writes every register but R6 (R204). -/
theorem Returned.regs {s t : State} (h : Returned s t) :
    SameRegsBut [5#3, 4#3, 3#3, 2#3, 1#3, 0#3, 7#3] s t := by
  intro r hr
  have hr6 : r = isIndex := by revert r; decide
  exact hr6 ▸ h.is

/-- A comparison gives exactly one flag bit (R143). -/
theorem compareFlags_exclusive (a b : Byte) :
    compareFlags a b = 0b001#3 ∨ compareFlags a b = 0b010#3 ∨ compareFlags a b = 0b100#3 := by
  unfold compareFlags
  split
  · exact .inl rfl
  · split
    · exact .inr (.inl rfl)
    · exact .inr (.inr rfl)

/-! ### The effect of an instruction -/

theorem byte_toNat_le (b : Byte) : b.toNat ≤ 255 := Nat.le_of_lt_succ b.isLt

/-- What the instruction `i` run from `s` does where it completes in `t`: which parts of the state
it may write, and what it writes to FL, IEN, the status and the output trace. -/
structure Completed (i : Instr) (s t : State) : Prop where
  regs : SameRegsBut (writtenRegs s.pIret i) s t
  pc : t.pc ≤ 255 ∨ t.pc ≤ s.pc + i.format.length
  wf : s.mem.wf = true → t.mem.wf = true
  fl : t.fl = s.fl ∨ (∃ ra rb, i = .comp ra rb ∧ t.fl = compareFlags (s.reg ra) (s.reg rb)) ∨
    (i = .iret ∧ s.pIret = .intended)
  ien : t.ien = s.ien ∨ (i = .iret ∧ s.pIret = .intended ∧ t.ien = true)
  lt : t.lt = s.lt
  status : t.status = s.status ∨ (i = .hlt ∧ t.status = .halted)
  output : t.output = s.output ∨
    (∃ ra, i = .prn ra ∧ t.output = s.output ++ [⟨.decimal, s.reg ra⟩]) ∨
    (∃ ra, i = .pra ra ∧ t.output = s.output ++ [⟨.char, s.reg ra⟩])
  pIret : t.pIret = s.pIret
  clock : t.clock = s.clock

/-- An instruction that writes memory, registers and PC alone. -/
theorem Completed.of_data {i : Instr} {s t : State}
    (h : t = { s with mem := t.mem, regs := t.regs, pc := t.pc })
    (regs : SameRegsBut (writtenRegs s.pIret i) s t)
    (pc : t.pc ≤ 255 ∨ t.pc ≤ s.pc + i.format.length)
    (wf : s.mem.wf = true → t.mem.wf = true) : Completed i s t where
  regs := regs
  pc := pc
  wf := wf
  fl := .inl (h ▸ rfl)
  ien := .inl (h ▸ rfl)
  lt := h ▸ rfl
  status := .inl (h ▸ rfl)
  output := .inl (h ▸ rfl)
  pIret := h ▸ rfl
  clock := h ▸ rfl

/-- An instruction that advances PC by its length and changes nothing else (JEQ and JNE not taken,
NOP). -/
theorem Completed.of_advance (i : Instr) (s : State) :
    Completed i s (s.advance i.format.length) :=
  .of_data rfl (.refl _ _) (.inr le_rfl) id

/-- An instruction that changes nothing (R200). -/
theorem Completed.of_refl (i : Instr) (s : State) : Completed i s s :=
  .of_data rfl (.refl _ _) (.inr (Nat.le_add_right _ _)) id

/-- An instruction that sets PC to a byte and changes nothing else (R166). -/
theorem Completed.of_jump (i : Instr) (s : State) (ra : RegIndex) :
    Completed i s (s.setPc (s.jumpTarget ra)) :=
  .of_data rfl (.refl _ _) (.inl (byte_toNat_le _)) id

/-- A conditional jump, taken or not (R167, R168). -/
theorem Completed.of_jumpIf (i : Instr) (s : State) (c : Bool) (ra : RegIndex)
    (hlen : i.format.length = 2) : Completed i s (s.jumpIf c ra) := by
  have taken : s.jumpIf true ra = s.setPc (s.jumpTarget ra) := rfl
  have notTaken : s.jumpIf false ra = s.advance 2 := rfl
  cases c with
  | true => rw [taken]; exact .of_jump i s ra
  | false => rw [notTaken, ← hlen]; exact .of_advance i s

/-- An instruction that writes the register `ra` and takes PC past its three bytes (R112, R140 to
R142). -/
theorem Completed.of_setReg (i : Instr) (s : State) (ra : RegIndex) (v : Byte)
    (hw : writtenRegs s.pIret i = [ra]) (hlen : i.format.length = 3) :
    Completed i s ((s.setReg ra v).advance 3) :=
  .of_data rfl (hw ▸ (SameRegsBut.refl [ra] s).setReg ra v (by simp)) (.inr (hlen ▸ le_rfl)) id

/-- The return from an interrupt (R204). -/
theorem Completed.of_returned {s t : State} (hp : s.pIret = .intended) (h : Returned s t) :
    Completed .iret s t where
  regs := by simpa only [writtenRegs, hp] using h.regs
  pc := .inl (h.pc ▸ byte_toNat_le _)
  wf hw := h.mem ▸ hw
  fl := .inr (.inr ⟨rfl, hp⟩)
  ien := .inr ⟨rfl, hp, h.ien⟩
  lt := h.lt
  status := .inl h.status
  output := .inl h.output
  pIret := h.pIret
  clock := h.clock

/-- A phase ends in a next state, its fault included (R222). -/
theorem State.finish_total (s : State) (r : Except FaultKind State) : ∃ t, s.finish r = .next t := by
  cases r with
  | ok t => exact ⟨t, rfl⟩
  | error k => exact ⟨s.raise k, rfl⟩

/-- Every instruction ends in a next state (R94). -/
theorem exec_total (i : Instr) (s : State) : ∃ t, exec i s = .next t := by
  cases i with
  | add ra rb => exact ⟨_, execAdd_eq s ra rb⟩
  | mul ra rb => exact ⟨_, execMul_eq s ra rb⟩
  | div | push | pop | call | ret => exact s.finish_total _
  | iret =>
    cases hp : s.pIret with
    | noop => exact ⟨s, execIret_noop s hp⟩
    | intended =>
      obtain ⟨t, ht⟩ := s.finish_total s.interruptReturn
      exact ⟨t, (execIret_intended s hp).trans ht⟩
  | _ => exact ⟨_, rfl⟩

/-- Everything the execution of an instruction can be: a fault that leaves all but the status as it
was (R222), or its effect. -/
theorem exec_cases (i : Instr) (s t : State) (h : exec i s = .next t) :
    (∃ k, t = s.raise k) ∨ Completed i s t := by
  cases i with
  | nop => cases h; exact .inr (.of_advance .nop s)
  | hlt =>
    cases h
    exact .inr ⟨.refl _ _, .inr (Nat.le_add_right _ _), id, .inl rfl, .inl rfl, rfl,
      .inr ⟨rfl, rfl⟩, .inl rfl, rfl, rfl⟩
  | ldi ra imm8 => cases h; exact .inr (.of_setReg _ s ra imm8 rfl rfl)
  | prn ra =>
    cases h
    exact .inr ⟨.refl _ _, .inr le_rfl, id, .inl rfl, .inl rfl, rfl, .inl rfl,
      .inr (.inl ⟨ra, rfl, rfl⟩), rfl, rfl⟩
  | pra ra =>
    cases h
    exact .inr ⟨.refl _ _, .inr le_rfl, id, .inl rfl, .inl rfl, rfl, .inl rfl,
      .inr (.inr ⟨ra, rfl, rfl⟩), rfl, rfl⟩
  | add ra rb => cases (execAdd_eq s ra rb).symm.trans h; exact .inr (.of_setReg _ s ra _ rfl rfl)
  | mul ra rb => cases (execMul_eq s ra rb).symm.trans h; exact .inr (.of_setReg _ s ra _ rfl rfl)
  | div ra rb =>
    have h := (execDiv_eq s ra rb).symm.trans h
    split at h
    · cases h; exact .inl ⟨_, rfl⟩
    · cases h; exact .inr (.of_setReg _ s ra _ rfl rfl)
  | comp ra rb =>
    cases h
    exact .inr ⟨.refl _ _, .inr le_rfl, id, .inr (.inl ⟨ra, rb, rfl, rfl⟩), .inl rfl, rfl,
      .inl rfl, .inl rfl, rfl, rfl⟩
  | push ra =>
    have h := (execPush_eq s ra).symm.trans h
    split at h
    · cases h; exact .inl ⟨_, rfl⟩
    · cases h
      exact .inr (.of_data rfl ((SameRegsBut.refl _ s).setReg spIndex _ (by simp [writtenRegs]))
        (.inr le_rfl) (State.storeByte_wf _ _ _))
  | pop ra =>
    have h := (execPop_eq s ra).symm.trans h
    split at h
    · cases h; exact .inl ⟨_, rfl⟩
    · cases h
      exact .inr (.of_data rfl (((SameRegsBut.refl _ s).setReg ra _ (by simp [writtenRegs])).setReg
        spIndex _ (by simp [writtenRegs])) (.inr le_rfl) id)
  | call ra =>
    have h := (execCall_eq s ra).symm.trans h
    split at h
    · cases h; exact .inl ⟨_, rfl⟩
    · cases h
      exact .inr (.of_data rfl ((SameRegsBut.refl _ s).setReg spIndex _ (by simp [writtenRegs]))
        (.inl (byte_toNat_le _)) (State.storeByte_wf _ _ _))
  | ret =>
    have h := (execRet_eq s).symm.trans h
    split at h
    · cases h; exact .inl ⟨_, rfl⟩
    · cases h
      exact .inr (.of_data rfl ((SameRegsBut.refl _ s).setReg spIndex _ (by simp [writtenRegs]))
        (.inl (byte_toNat_le _)) (State.storeByte_wf (s.setPc (s.loadByte s.sp).toNat) s.sp 0#8))
  | jmp ra => cases h; exact .inr (.of_jump _ s ra)
  | jeq ra => cases h; exact .inr (.of_jumpIf _ s _ ra rfl)
  | jne ra => cases h; exact .inr (.of_jumpIf _ s _ ra rfl)
  | st ra rb =>
    cases h
    exact .inr (.of_data rfl (.refl _ _) (.inr le_rfl) (State.storeByte_wf _ _ _))
  | inc => cases h; exact .inr (.of_refl _ s)
  | inte => cases h; exact .inr (.of_refl _ s)
  | iret =>
    cases hp : s.pIret with
    | noop => cases (execIret_noop s hp).symm.trans h; exact .inr (.of_refl _ s)
    | intended =>
      rcases State.finish_next s t _ ((execIret_intended s hp).symm.trans h) with hr | ⟨k, -, hk⟩
      · exact .inr (.of_returned hp (State.interruptReturn_spec s t hr))
      · exact .inl ⟨k, hk⟩

end Sys2Proof.Machine

/-! SUPPORT. What a step can do, from the effect of its instruction and of the phases before it. -/

namespace Sys2Proof.Machine

/-! ### The phases before an instruction runs -/

/-- What the state `u`, in which a step from `s` runs its instruction or faults, has in common with
`s` (R95): all but the registers, memory and PC, an interrupt entry's writes of IEN and LT, and the
reading of the clock. -/
structure BeforeExec (s u : State) : Prop where
  fl : u.fl = s.fl
  status : u.status = s.status
  output : u.output = s.output
  pIret : u.pIret = s.pIret
  clock : s.clock ≤ u.clock
  entry : (u.ien = s.ien ∧ u.lt = s.lt) ∨
    (s.pollClock.interruptDue ∧ u.ien = false ∧ u.lt = s.now)
  inv : s.Inv → u.Inv

theorem BeforeExec.refl (s : State) : BeforeExec s s :=
  ⟨rfl, rfl, rfl, rfl, le_rfl, .inl ⟨rfl, rfl⟩, id⟩

/-- Reading the clock keeps the invariant, since the clock never runs back (R53). -/
theorem State.pollClock_inv (s : State) (h : s.Inv) : s.pollClock.Inv := by
  obtain ⟨hwf, hpc, hlt⟩ := h
  exact ⟨by simpa using hwf, by simpa using hpc, by simpa using hlt.trans s.clock_le_pollClock⟩

theorem BeforeExec.of_pollClock (s : State) : BeforeExec s s.pollClock :=
  ⟨by simp, by simp, by simp, by simp, s.clock_le_pollClock, .inl (by simp), s.pollClock_inv⟩

/-- Where an interrupt is due the controller is armed, so the clock was read (R235, R236). -/
theorem State.pollClock_clock_of_due (s : State) (h : s.pollClock.interruptDue) :
    s.pollClock.clock = s.now := by
  have harmed : s.armed = true := by simpa using ((State.interruptDue_iff _).1 h).1
  rw [State.pollClock_of_armed s harmed]

/-- An interrupt entry leaves a PC that is a byte (R240). -/
theorem Entered.pc_le {s t : State} {now : Int} (h : Entered s now t) : t.pc ≤ 255 :=
  h.pc ▸ byte_toNat_le _

/-- An interrupt entry at the clock last read keeps the invariant. -/
theorem Entered.inv {s t : State} (h : Entered s s.clock t) (hs : s.Inv) : t.Inv := by
  obtain ⟨hwf, -, -⟩ := hs
  exact ⟨h.wf hwf, Nat.le_succ_of_le h.pc_le, by rw [h.lt, h.clock]⟩

theorem BeforeExec.of_phaseB {s u : State} (h : s.pollClock.phaseB = .ok u) : BeforeExec s u := by
  rcases State.phaseB_cases _ _ h with ⟨-, rfl⟩ | ⟨hdue, he⟩
  · exact .of_pollClock s
  · have hp := BeforeExec.of_pollClock s
    exact ⟨he.fl.trans hp.fl, he.status.trans hp.status, he.output.trans hp.output,
      he.pIret.trans hp.pIret, he.clock ▸ hp.clock,
      .inr ⟨hdue, he.ien, he.lt.trans (s.pollClock_clock_of_due hdue)⟩, fun hs => he.inv (hp.inv hs)⟩

/-! ### The instruction a step runs -/

theorem RunsFrom.fetch {s u : State} {i : Instr} (h : RunsFrom s u i) : u.fetch = .ok i :=
  (u.fetch_ok i).2 h.2.2

/-- An instruction runs from an address (R96, R240). -/
theorem RunsFrom.pc_le {s u : State} {i : Instr} (h : RunsFrom s u i) : u.pc ≤ 255 := by
  obtain ⟨hpc, hB, -⟩ := h
  rcases State.phaseB_cases _ _ hB with ⟨-, rfl⟩ | ⟨-, he⟩
  · simpa using hpc
  · exact he.pc_le

/-- An instruction that runs lies inside memory with all its bytes (R85). -/
theorem RunsFrom.fits {s u : State} {i : Instr} (h : RunsFrom s u i) :
    u.pc + i.format.length ≤ 256 :=
  u.fetch_fits i h.pc_le h.fetch

/-- Everything a step to a next state can be, over its effect: a fault of some phase, or an
instruction that completes (R95, R222). -/
theorem step_effect (s t : State) (h : step s = .next t) :
    s.status = .running ∧ ∃ u, BeforeExec s u ∧
      ((∃ k, t = u.raise k) ∨ ∃ i, RunsFrom s u i ∧ Completed i u t) := by
  obtain ⟨hrun, ⟨-, rfl⟩ | ⟨-, -, -, rfl⟩ | ⟨hpc, u, hB, ⟨k, -, rfl⟩ | ⟨i, hf, hx⟩⟩⟩ := step_next s t h
  · exact ⟨hrun, s, .refl s, .inl ⟨_, rfl⟩⟩
  · exact ⟨hrun, _, .of_pollClock s, .inl ⟨_, rfl⟩⟩
  · exact ⟨hrun, u, .of_phaseB hB, .inl ⟨k, rfl⟩⟩
  · exact ⟨hrun, u, .of_phaseB hB,
      (exec_cases i u t hx).imp_right fun hc => ⟨i, ⟨hpc, hB, (u.fetch_ok i).1 hf⟩, hc⟩⟩

theorem State.not_notFaulted_raise (s : State) (k : FaultKind) : ¬ (s.raise k).NotFaulted :=
  fun h => h k rfl

/-- A step that does not fault ran an instruction to its end. -/
theorem step_completes (s t : State) (h : step s = .next t) (hn : t.NotFaulted) :
    s.status = .running ∧ ∃ u i, BeforeExec s u ∧ RunsFrom s u i ∧ Completed i u t := by
  obtain ⟨hrun, u, hu, ⟨k, rfl⟩ | ⟨i, hr, hc⟩⟩ := step_effect s t h
  · exact absurd hn (u.not_notFaulted_raise k)
  · exact ⟨hrun, u, i, hu, hr, hc⟩

/-- An instruction with its bytes inside memory keeps the invariant. -/
theorem Completed.inv {i : Instr} {s t : State} (h : Completed i s t)
    (hfits : s.pc + i.format.length ≤ 256) (hs : s.Inv) : t.Inv := by
  obtain ⟨hwf, -, hlt⟩ := hs
  refine ⟨h.wf hwf, ?_, by rw [h.lt, h.clock]; exact hlt⟩
  rcases h.pc with hb | hadv
  · exact Nat.le_succ_of_le hb
  · exact hadv.trans hfits

/-- In mode noop every instruction keeps the flag bits mutually exclusive (R34, R203). -/
theorem Completed.flagsExclusive {i : Instr} {s t : State} (h : Completed i s t)
    (hp : s.pIret = .noop) (hs : s.FlagsExclusive) : t.FlagsExclusive := by
  rcases h.fl with hfl | ⟨ra, rb, -, hfl⟩ | ⟨-, hint⟩
  · rw [State.FlagsExclusive, hfl]; exact hs
  · rw [State.FlagsExclusive, hfl]; exact .inr (compareFlags_exclusive _ _)
  · rw [hp] at hint; cases hint

end Sys2Proof.Machine

/-! SUPPORT. The rules of every step: the invariants, and what each part of the state is written
by. -/

namespace Sys2Proof.Machine

/-- Settles O20: each phase keeps the invariant, and a fault writes the status alone. -/
theorem stepKeepsInvariant : Obligations.StepKeepsInvariant := by
  intro s t hs h
  obtain ⟨-, u, hu, ⟨k, rfl⟩ | ⟨i, hr, hc⟩⟩ := step_effect s t h
  · exact hu.inv hs
  · exact hc.inv hr.fits (hu.inv hs)

/-- Phase C ends in a next state (R94). -/
theorem State.phaseC_total (s : State) : ∃ t, s.phaseC = .next t := by
  cases hf : s.fetch with
  | error k => exact ⟨s.raise k, by simp only [State.phaseC, hf]⟩
  | ok i =>
    obtain ⟨t, ht⟩ := exec_total i s
    exact ⟨t, (s.phaseC_of_fetch i hf).trans ht⟩

/-- Phases B and C end in a next state (R94). -/
theorem State.phasesBC_total (s : State) : ∃ t, s.phasesBC = .next t := by
  cases hB : s.phaseB with
  | error k => exact ⟨s.raise k, by simp only [State.phasesBC, hB]⟩
  | ok u => simpa only [State.phasesBC, hB] using u.phaseC_total

/-- A running core takes a step (R94). -/
theorem step_total (s : State) (h : s.status = .running) : ∃ t, step s = .next t := by
  by_cases hpc : s.pc ≤ 255
  · rw [step_of_running s h hpc]
    exact s.pollClock.phasesBC_total
  · exact ⟨_, step_of_past_end s h (by omega)⟩

/-- Settles O8: a running core takes a step, and a stopped one takes none. -/
theorem stepsExactlyWhileRunning : Obligations.StepsExactlyWhileRunning := by
  intro s
  constructor
  · rintro ⟨t, h⟩
    exact (step_effect s t h).1
  · exact step_total s

/-- Settles O15: of the instructions that complete HLT alone leaves a status of its own. -/
theorem haltOnlyByHlt : Obligations.HaltOnlyByHlt := by
  intro s t h hhalt
  obtain ⟨hrun, u, i, hu, hr, hc⟩ := step_completes s t h (by simp [State.NotFaulted, hhalt])
  rcases hc.status with hsame | ⟨rfl, -⟩
  · simp [hhalt, hu.status, hrun] at hsame
  · exact ⟨u, hr⟩

/-- Settles O21: phase B leaves FL, and in mode noop an instruction writes a comparison's flags or
none. -/
theorem stepKeepsFlagsExclusive : Obligations.StepKeepsFlagsExclusive := by
  intro s t hp hs h hn
  obtain ⟨-, u, i, hu, -, hc⟩ := step_completes s t h hn
  exact hc.flagsExclusive (hu.pIret.trans hp) (by rw [State.FlagsExclusive, hu.fl]; exact hs)

/-- Settles O22: with IEN clear no interrupt is due, and in mode noop no instruction sets IEN. -/
theorem latchStaysClearInNoopMode : Obligations.LatchStaysClearInNoopMode := by
  intro s t hp hien h hn
  obtain ⟨-, u, i, hu, -, hc⟩ := step_completes s t h hn
  have hnotDue : ¬ s.pollClock.interruptDue := fun ⟨harmed, _⟩ => by simp [hien] at harmed
  have hkept : u.ien = s.ien ∧ u.lt = s.lt := hu.entry.resolve_right fun ⟨hdue, _⟩ => hnotDue hdue
  have hnoop : u.pIret ≠ .intended := by simp [hu.pIret, hp]
  have hien' : t.ien = u.ien := hc.ien.resolve_right fun ⟨_, hint, _⟩ => hnoop hint
  exact ⟨hien'.trans (hkept.1.trans hien), hc.lt.trans hkept.2⟩

/-- Settles O23: the phases before an instruction move the clock forward alone, and no instruction
writes it or the parameter. -/
theorem clockForwardParameterFixed : Obligations.ClockForwardParameterFixed := by
  intro s t h
  obtain ⟨-, u, hu, ⟨k, rfl⟩ | ⟨i, -, hc⟩⟩ := step_effect s t h
  · exact ⟨hu.clock, hu.pIret⟩
  · exact ⟨hc.clock ▸ hu.clock, hc.pIret.trans hu.pIret⟩

/-- Settles O24: phase B leaves FL, so the instruction changed it. -/
theorem flagsWrittenOnlyByComp : Obligations.FlagsWrittenOnlyByComp := by
  intro s t h hn hne
  obtain ⟨-, u, i, hu, hr, hc⟩ := step_completes s t h hn
  rcases hc.fl with hsame | ⟨ra, rb, hi, -⟩ | ⟨hi, hint⟩
  · exact absurd (hsame.trans hu.fl) hne
  · exact ⟨u, i, hr, .inl ⟨ra, rb, hi⟩⟩
  · exact ⟨u, i, hr, .inr ⟨hi, hu.pIret ▸ hint⟩⟩

/-- Settles O25: no instruction writes LT, so an interrupt entry changed it. -/
theorem lastTimeWrittenOnlyByEntry : Obligations.LastTimeWrittenOnlyByEntry := by
  refine ⟨fun _ _ => rfl, fun s t h hn hne => ?_⟩
  obtain ⟨-, u, i, hu, -, hc⟩ := step_completes s t h hn
  rcases hu.entry with ⟨-, hsame⟩ | ⟨hdue, -, hnow⟩
  · exact absurd (hc.lt.trans hsame) hne
  · exact ⟨hdue, hc.lt.trans hnow⟩

/-- Settles O26: an entry leaves IEN clear, and the intended IRET alone of the instructions writes
it, to 1. -/
theorem latchWritersOnly : Obligations.LatchWritersOnly := by
  intro s t h hn
  obtain ⟨-, u, i, hu, hr, hc⟩ := step_completes s t h hn
  constructor
  · intro hset hclear
    rcases hu.entry with ⟨hsame, -⟩ | ⟨hdue, -, -⟩
    · rcases hc.ien with hkept | ⟨-, -, hset'⟩
      · simp [hclear, hsame, hset] at hkept
      · simp [hclear] at hset'
    · exact hdue
  · intro hclear hset
    have huclear : u.ien = false := by
      rcases hu.entry with ⟨hsame, -⟩ | ⟨-, huclear, -⟩
      · exact hsame.trans hclear
      · exact huclear
    rcases hc.ien with hkept | ⟨rfl, hint, -⟩
    · simp [hset, huclear] at hkept
    · exact ⟨hu.pIret ▸ hint, u, hr⟩

/-- Settles O27: no fault and no phase before the instruction writes the output trace. -/
theorem outputOnlyByPrint : Obligations.OutputOnlyByPrint := by
  refine ⟨fun _ _ => rfl, fun s t h => ?_⟩
  obtain ⟨-, u, hu, ⟨k, rfl⟩ | ⟨i, hr, hc⟩⟩ := step_effect s t h
  · exact .inl hu.output
  · rcases hc.output with hsame | ⟨ra, rfl, hprn⟩ | ⟨ra, rfl, hpra⟩
    · exact .inl (hsame.trans hu.output)
    · exact .inr (.inl ⟨u, ra, hr, hu.output ▸ hprn⟩)
    · exact .inr (.inr ⟨u, ra, hr, hu.output ▸ hpra⟩)

/-- Settles O28: the effect of an instruction, and of an interrupt entry, names the registers it may
write. -/
theorem registerWriters : Obligations.RegisterWriters := by
  refine ⟨fun i s t h hn => ?_, fun s t h => ?_, fun s t hnotDue h => ?_⟩
  · rcases exec_cases i s t h with ⟨k, rfl⟩ | hc
    · exact absurd hn (s.not_notFaulted_raise k)
    · exact hc.regs
  · rcases State.phaseB_cases s t h with ⟨-, rfl⟩ | ⟨-, he⟩
    · exact .refl _ _
    · exact he.regs
  · cases (s.phaseB_of_not_due hnotDue).symm.trans h
    exact .refl _ _

end Sys2Proof.Machine

/-! SUPPORT. The state after reset, the host's load and start, and the register file's contract. -/

namespace Sys2Proof.Machine

/-! ### Reset -/

/-- The registers at reset depend on no parameter: SP holds 0xF4, every other one zero (R29, R45). -/
theorem State.initial_reg (p : PIret) (now : Int) (r : RegIndex) :
    (State.initial p now).reg r = if r = 7#3 then 0xF4#8 else 0x00#8 := by
  have hreset : ∀ q : RegIndex, State.reset.reg q = if q = 7#3 then 0xF4#8 else 0x00#8 := by decide
  exact hreset r

/-- Settles O16: each field as constructed, the registers by their indices. -/
theorem resetValues : Obligations.ResetValues := fun p now =>
  ⟨fun _ => rfl, State.initial_reg p now, rfl, rfl, rfl, rfl, rfl, rfl, rfl⟩

theorem State.initial_inv (p : PIret) (now : Int) : (State.initial p now).Inv :=
  ⟨rfl, Nat.zero_le _, le_rfl⟩

theorem State.initial_flagsExclusive (p : PIret) (now : Int) :
    (State.initial p now).FlagsExclusive := .inl rfl

/-- Settles O19: `State.reset` is one of the machines as constructed. -/
theorem resetMeetsInvariants : Obligations.ResetMeetsInvariants :=
  ⟨fun p now => ⟨State.initial_inv p now, State.initial_flagsExclusive p now⟩,
    State.initial_inv _ _, State.initial_flagsExclusive _ _⟩

/-! ### Load and start -/

theorem State.memSet_of_le (s : State) (a : Nat) (v : Byte) (h : a ≤ 255) :
    s.memSet a v = .ok { s with mem := s.mem.write a v } :=
  if_pos (Nat.lt_succ_of_le h)

theorem State.placeBytes_cons (s : State) (a : Nat) (v : Byte) (vs : List Byte) (h : a ≤ 255) :
    s.placeBytes a (v :: vs) =
      State.placeBytes { s with mem := s.mem.write a v } (a + 1) vs := by
  simp only [State.placeBytes, s.memSet_of_le a v h]

/-- Placing bytes that fit writes memory alone: each byte at its address, the other cells as
before (R50). -/
theorem State.placeBytes_spec (bytes : List Byte) (s : State) (a : Nat)
    (hfit : a + bytes.length ≤ 256) :
    s.placeBytes a bytes = { s with mem := (s.placeBytes a bytes).mem } ∧
      (∀ (k : Nat) (hk : k < bytes.length),
        (s.placeBytes a bytes).mem.read (a + k) = bytes[k]) ∧
      (∀ b : Nat, b < a ∨ a + bytes.length ≤ b →
        (s.placeBytes a bytes).mem.read b = s.mem.read b) := by
  induction bytes generalizing s a with
  | nil => exact ⟨rfl, fun k hk => absurd hk (Nat.not_lt_zero k), fun _ _ => rfl⟩
  | cons v vs ih =>
    simp only [List.length_cons] at hfit ⊢
    rw [s.placeBytes_cons a v vs (by omega)]
    obtain ⟨hrest, hin, hout⟩ := ih { s with mem := s.mem.write a v } (a + 1) (by omega)
    refine ⟨hrest, fun k hk => ?_, fun b hb => ?_⟩
    · cases k with
      | zero => rw [hout _ (by omega)]; simp [Memory.read_write]
      | succ k =>
        rw [show a + (k + 1) = a + 1 + k by omega]
        exact hin k (by omega)
    · rw [hout b (by omega)]
      simp [Memory.read_write, show b ≠ a by omega]

theorem State.load_of_fits (s : State) (bytes : List Byte) (start : Byte)
    (h : start.toNat + bytes.length ≤ 256) :
    s.load bytes start = some (s.placeBytes start.toNat bytes) := by
  simp [State.load, loadFits, h]

theorem State.load_of_not_fits (s : State) (bytes : List Byte) (start : Byte)
    (h : 256 < start.toNat + bytes.length) : s.load bytes start = none := by
  simp [State.load, loadFits, h]

/-- Settles O17: a load that fits places its bytes, which writes memory alone. -/
theorem loadCopiesBytes : Obligations.LoadCopiesBytes := by
  refine fun s start bytes => ⟨fun hfit => ?_, s.load_of_not_fits bytes start⟩
  obtain ⟨hrest, hin, hout⟩ := State.placeBytes_spec bytes s start.toNat hfit
  refine ⟨_, s.load_of_fits bytes start hfit, hin, hout, ?_⟩
  rw [hrest]
  exact ⟨.refl _ _, rfl, rfl, rfl, rfl, rfl, rfl, rfl, rfl, rfl⟩

/-- A machine built and loaded with bytes that fit runs from PC 0 and holds them at their
addresses (R50, R51). -/
theorem boot_spec (p : PIret) (now : Int) (bytes : List Byte) (start : Byte)
    (hfit : start.toNat + bytes.length ≤ 256) :
    ∃ t, boot p now bytes start = some t ∧ t.status = .running ∧ t.pc = 0 ∧
      ∀ (k : Nat) (hk : k < bytes.length), t.mem.read (start.toNat + k) = bytes[k] := by
  obtain ⟨-, hin, -⟩ := State.placeBytes_spec bytes (State.initial p now) start.toNat hfit
  refine ⟨((State.initial p now).placeBytes start.toNat bytes).start, ?_, rfl, rfl, hin⟩
  rw [boot, State.load_of_fits _ bytes start hfit, Option.map_some]

/-- Settles O18: the default load address is 0 (R68). -/
theorem startAtZero : Obligations.StartAtZero := by
  refine ⟨fun p now start bytes hfit => boot_spec p now bytes start hfit,
    fun p now bytes hfit => ?_⟩
  have hzero : Config.loadAddress.toNat = 0 := rfl
  simpa [hzero] using boot_spec p now bytes Config.loadAddress (by simpa [hzero] using hfit)

/-! ### The register file's contract (R21) -/

theorem State.regGet_of_gt (s : State) (i : Nat) (h : 7 < i) :
    s.regGet i = .error .invalidRegister :=
  dif_neg (by omega)

theorem State.regSet_of_gt (s : State) (i : Nat) (v : Byte) (h : 7 < i) :
    s.regSet i v = .error .invalidRegister :=
  dif_neg (by omega)

/-- An index from 0 to 7 is a three-bit register index (R83). -/
theorem exists_regIndex (i : Nat) (h : i ≤ 7) : ∃ r : RegIndex, r.toNat = i :=
  ⟨BitVec.ofNat 3 i, by simp; omega⟩

/-- A get after a set of another index gives what it gave before, an invalid index included. -/
theorem State.regGet_setReg_ne (s : State) (r : RegIndex) (v : Byte) (j : Nat) (h : j ≠ r.toNat) :
    (s.setReg r v).regGet j = s.regGet j := by
  by_cases hj : 7 < j
  · rw [State.regGet_of_gt _ j hj, State.regGet_of_gt _ j hj]
  · obtain ⟨q, rfl⟩ := exists_regIndex j (by omega)
    rw [State.regGet_regIndex, State.regGet_regIndex,
      State.reg_setReg_ne _ _ _ _ (fun e => h (congrArg BitVec.toNat e))]

/-- Settles O31: a valid index is that of a register the instructions read and write. -/
theorem registerFileContract : Obligations.RegisterFileContract := by
  refine ⟨fun s i v => ⟨fun hi => ⟨s.regGet_of_gt i hi, s.regSet_of_gt i v hi⟩, fun hi => ?_⟩,
    fun s r v => ⟨s.regGet_regIndex r, s.regSet_regIndex r v⟩⟩
  obtain ⟨r, rfl⟩ := exists_regIndex i hi
  exact ⟨⟨_, s.regGet_regIndex r⟩, _, s.regSet_regIndex r v,
    by rw [State.regGet_regIndex, State.reg_setReg_same],
    fun j hj => s.regGet_setReg_ne r v j hj⟩

end Sys2Proof.Machine

/-! SUPPORT. What phase B reads of IM and IS: bit 0 of IM and nothing else (R24, R235). -/

namespace Sys2Proof.Machine

/-! ### A register write the controller does not see -/

/-- IS is no part of the arming condition (R24, R235). -/
theorem State.armed_setIs (s : State) (v : Byte) : (s.setReg isIndex v).armed = s.armed := by
  simp [State.armed, State.reg_setReg_ne s isIndex imIndex v (by decide)]

/-- Of IM the arming condition reads bit 0 alone (R235). -/
theorem State.armed_setIm (s : State) (v : Byte) (h : v.getLsbD 0 = s.im.getLsbD 0) :
    (s.setReg imIndex v).armed = s.armed := by
  simp only [State.armed, State.setReg_ien, State.reg_setReg_same, h]

/-- A register write that does not arm or disarm the controller does not change whether the clock
is read (R236). -/
theorem State.pollClock_setReg (s : State) (r : RegIndex) (v : Byte)
    (h : (s.setReg r v).armed = s.armed) : (s.setReg r v).pollClock = s.pollClock.setReg r v := by
  cases ha : s.armed with
  | false => rw [s.pollClock_of_not_armed ha, State.pollClock_of_not_armed _ (h.trans ha)]
  | true => rw [s.pollClock_of_armed ha, State.pollClock_of_armed _ (h.trans ha)]; rfl

/-- Nor does it change whether an interrupt is due (R237). -/
theorem State.interruptDue_setReg (s : State) (r : RegIndex) (v : Byte)
    (h : (s.setReg r v).armed = s.armed) : (s.setReg r v).interruptDue ↔ s.interruptDue := by
  rw [State.interruptDue_iff, State.interruptDue_iff, h]
  rfl

/-- Phase B faults exactly for an interrupt that is due without room for eight bytes (R224). -/
theorem State.phaseB_error_iff (s : State) (k : FaultKind) :
    s.phaseB = .error k ↔ s.interruptDue ∧ s.sp.toNat < 8 ∧ k = .outOfBoundsAccess := by
  constructor
  · exact s.phaseB_error k
  · rintro ⟨hdue, hsp, rfl⟩
    rw [s.phaseB_of_due hdue, s.interruptEntry_error _ hsp]

/-! ### Two entries that differ in IM -/

theorem State.sp_setIm (s : State) (v : Byte) : (s.setReg imIndex v).sp = s.sp :=
  State.reg_setReg_ne _ _ _ _ (by decide)

/-- Every address but that of the byte pushed for R5 lies outside the eight bytes of an entry, or
holds the byte pushed for PC, FL or one of R0 to R4 (R241). -/
theorem entry_slot_cases (sp a : Nat) (hroom : 8 ≤ sp) (ha : a ≠ sp - 8) :
    (a < sp - 8 ∨ sp ≤ a) ∨ a = sp - 1 ∨ a = sp - 2 ∨
      ∃ r : RegIndex, r.toNat < 5 ∧ a = sp - 3 - r.toNat := by
  by_cases hreg : sp - 8 < a ∧ a ≤ sp - 3
  · refine .inr (.inr (.inr ⟨BitVec.ofNat 3 (sp - 3 - a), ?_⟩))
    have hmod : (sp - 3 - a) % 2 ^ 3 = sp - 3 - a := Nat.mod_eq_of_lt (by omega)
    rw [BitVec.toNat_ofNat, hmod]
    omega
  · omega

/-- The byte an entry pushes last is R5 (R241). -/
theorem Entered.read_savedIm {s u : State} {v : Byte} {now : Int}
    (hu : Entered (s.setReg imIndex v) now u) : u.mem.read (s.sp.toNat - 8) = v := by
  have hsaved := hu.savedReg imIndex (by decide)
  rwa [s.sp_setIm v, State.reg_setReg_same] at hsaved

section
variable {s t u : State} {v : Byte} {now : Int}
variable (ht : Entered s now t) (hu : Entered (s.setReg imIndex v) now u)
include ht hu

/-- Entries that differ in IM alone push the same bytes but the one for R5 (R241). -/
theorem Entered.mem_eq_of_setIm (a : Nat) (ha : a ≠ s.sp.toNat - 8) :
    u.mem.read a = t.mem.read a := by
  have hsp := s.sp_setIm v
  rcases entry_slot_cases s.sp.toNat a ht.room ha with hout | rfl | rfl | ⟨r, hr, rfl⟩
  · exact (hu.mem a (hsp.symm ▸ hout)).trans (ht.mem a hout).symm
  · exact (hsp ▸ hu.savedPc).trans ht.savedPc.symm
  · exact (hsp ▸ hu.savedFl).trans ht.savedFl.symm
  · have hne : r ≠ imIndex := by rintro rfl; simp at hr
    rw [ht.savedReg r (by omega), ← s.reg_setReg_ne imIndex r v hne, ← hu.savedReg r (by omega), hsp]

/-- Entries that differ in IM alone leave the same registers but R5. -/
theorem Entered.regs_eq_of_setIm : SameRegsBut [imIndex] t u := by
  intro r hr
  have hne : r ≠ imIndex := by simpa using hr
  by_cases his : r = isIndex
  · exact his ▸ hu.is.trans ht.is.symm
  by_cases hsp : r = spIndex
  · subst hsp
    exact BitVec.eq_of_toNat_eq (by rw [hu.sp, ht.sp, s.sp_setIm v])
  · have hr' : r ∉ [isIndex, spIndex] := by simp [his, hsp]
    rw [hu.regs r hr', ht.regs r hr', s.reg_setReg_ne imIndex r v hne]

/-- Entries that differ in IM alone read the same vector, which never is the byte pushed for R5:
that one lies below 0xF8 (R240, R241). -/
theorem Entered.pc_eq_of_setIm : u.pc = t.pc := by
  have hvec : Config.vectorAddr.toNat ≠ s.sp.toNat - 8 := by
    have hvector : Config.vectorAddr.toNat = 248 := rfl
    have hsp := byte_toNat_le s.sp
    omega
  have hread : u.loadByte Config.vectorAddr = t.loadByte Config.vectorAddr :=
    ht.mem_eq_of_setIm hu _ hvec
  rw [hu.pc, ht.pc, hread]

end

/-- With an interrupt due in both and one mask's entry taken, the other mask's entry is taken too:
both need room for eight bytes alone (R238). -/
theorem State.phaseB_setIm_of_entered (s t : State) (v : Byte)
    (hdue : (s.setReg imIndex v).interruptDue) (ht : Entered s s.clock t) :
    ∃ u, (s.setReg imIndex v).phaseB = .ok u ∧ Entered (s.setReg imIndex v) s.clock u := by
  obtain ⟨u, hu⟩ := (s.setReg imIndex v).interruptEntry_ok s.clock
    (by rw [s.sp_setIm v]; exact ht.room)
  exact ⟨u, (State.phaseB_of_due _ hdue).trans hu, State.interruptEntry_spec _ _ _ hu⟩

/-- Settles O35: IS is overwritten by an entry before it is read, and of IM bit 0 alone decides;
the other bits reach only R5 and its pushed byte. -/
theorem interruptIgnoresStatusAndHighMask : Obligations.InterruptIgnoresStatusAndHighMask := by
  constructor
  · intro s v
    have harmed := s.armed_setIs v
    have hdueIff := s.interruptDue_setReg isIndex v harmed
    refine ⟨s.pollClock_setReg isIndex v harmed, fun hdue => ?_, fun hnot => ?_⟩
    · rw [State.phaseB_of_due _ (hdueIff.2 hdue), s.phaseB_of_due hdue, State.setReg_clock,
        s.interruptEntry_setIs]
    · exact State.phaseB_of_not_due _ (hdueIff.not.2 hnot)
  · intro s v hbit
    have harmed := s.armed_setIm v hbit
    have hdueIff := s.interruptDue_setReg imIndex v harmed
    refine ⟨s.pollClock_setReg imIndex v harmed, fun hnot => ?_, fun k => ?_, fun t hdue hB => ?_⟩
    · exact ⟨s.phaseB_of_not_due hnot, State.phaseB_of_not_due _ (hdueIff.not.2 hnot)⟩
    · rw [State.phaseB_error_iff, State.phaseB_error_iff, hdueIff, s.sp_setIm v]
    · have ht : Entered s s.clock t :=
        State.interruptEntry_spec s t _ ((s.phaseB_of_due hdue).symm.trans hB)
      obtain ⟨u, huB, hu⟩ := s.phaseB_setIm_of_entered t v (hdueIff.2 hdue) ht
      have himKept : u.im = v := (hu.regs imIndex (by decide)).trans (s.reg_setReg_same imIndex v)
      exact ⟨u, huB, ht.ien, hu.ien, ht.lt, hu.lt, hu.read_savedIm, ht.mem_eq_of_setIm hu, himKept,
        ht.regs_eq_of_setIm hu, ht.pc_eq_of_setIm hu, hu.fl.trans ht.fl.symm,
        hu.status.trans ht.status.symm, hu.output.trans ht.output.symm⟩

end Sys2Proof.Machine

/-! SUPPORT. What is written to memory: the memory's contract, and the one byte an instruction may
store. -/

namespace Sys2Proof.Machine

/-! ### The memory's contract (R61) -/

theorem State.memSet_of_gt (s : State) (a : Nat) (v : Byte) (h : 255 < a) :
    s.memSet a v = .error .outOfBoundsAccess :=
  if_neg (Nat.not_lt.2 h)

/-- The contract's read looks at memory alone, and at the one cell. -/
theorem State.memGet_congr {s t : State} {a : Nat} (h : t.mem.read a = s.mem.read a) :
    t.memGet a = s.memGet a := by
  simp only [State.memGet, h]

/-- Settles O30: inside [0, 255] the contract is that of `Memory.write`, which a read sees at the
address written and nowhere else (R67). -/
theorem memoryContract : Obligations.MemoryContract := by
  refine fun s a v => ⟨fun ha => ⟨s.memGet_of_gt a ha, s.memSet_of_gt a v ha⟩,
    fun ha => ⟨s.memGet_of_le a ha, _, s.memSet_of_le a v ha, ?_, fun b hb => ?_⟩⟩
  · rw [State.memGet_of_le _ a ha, Memory.read_write, if_pos rfl]
  · exact State.memGet_congr ((s.mem.read_write a v b).trans (if_neg hb))

/-! ### The byte an instruction stores (R62, R64) -/

/-- A conditional jump leaves memory as it was, taken or not (R167, R168). -/
@[simp] theorem State.jumpIf_mem (s : State) (c : Bool) (ra : RegIndex) :
    (s.jumpIf c ra).mem = s.mem := by
  cases c <;> rfl

/-- Memory after an instruction, a fault included: as before, or with one byte written at its store
address. -/
theorem exec_mem (i : Instr) (s t : State) (h : exec i s = .next t) :
    t.mem = s.mem ∨ ∃ b v, storedAddress s i = some b ∧ t.mem = s.mem.write b.toNat v := by
  cases i with
  | push ra =>
    have h := (execPush_eq s ra).symm.trans h
    split at h
    · cases h; exact .inl rfl
    · cases h; exact .inr ⟨s.sp - 1#8, _, rfl, rfl⟩
  | call ra =>
    have h := (execCall_eq s ra).symm.trans h
    split at h
    · cases h; exact .inl rfl
    · cases h; exact .inr ⟨s.sp - 1#8, _, rfl, rfl⟩
  | ret =>
    have h := (execRet_eq s).symm.trans h
    split at h
    · cases h; exact .inl rfl
    · cases h; exact .inr ⟨s.sp, 0#8, rfl, rfl⟩
  | st ra rb => cases h; exact .inr ⟨s.storeAddress ra, _, rfl, rfl⟩
  | add ra rb => cases (execAdd_eq s ra rb).symm.trans h; exact .inl rfl
  | mul ra rb => cases (execMul_eq s ra rb).symm.trans h; exact .inl rfl
  | div ra rb =>
    have h := (execDiv_eq s ra rb).symm.trans h
    split at h <;> (cases h; exact .inl rfl)
  | pop ra =>
    have h := (execPop_eq s ra).symm.trans h
    split at h <;> (cases h; exact .inl rfl)
  | jeq ra => cases h; exact .inl (s.jumpIf_mem _ ra)
  | jne ra => cases h; exact .inl (s.jumpIf_mem _ ra)
  | iret =>
    cases hp : s.pIret with
    | noop => cases (execIret_noop s hp).symm.trans h; exact .inl rfl
    | intended =>
      rcases State.finish_next s t _ ((execIret_intended s hp).symm.trans h) with hr | ⟨k, -, rfl⟩
      · exact .inl (State.interruptReturn_spec s t hr).mem
      · exact .inl rfl
  | nop | hlt | ldi | prn | pra | comp | jmp | inc | inte => cases h; exact .inl rfl

/-- Phase B leaves every byte but the eight an entry pushes below SP, and every byte where no
interrupt is due (R237, R241). -/
theorem State.phaseB_read (s t : State) (a : Nat) (h : s.phaseB = .ok t)
    (ha : s.interruptDue → a < s.sp.toNat - 8 ∨ s.sp.toNat ≤ a) :
    t.mem.read a = s.mem.read a := by
  rcases State.phaseB_cases s t h with ⟨-, rfl⟩ | ⟨hdue, he⟩
  · rfl
  · exact he.mem a (ha hdue)

/-- Settles O29: an instruction writes at most its store address, and phase B at most the bytes an
entry pushes. -/
theorem memoryWriters : Obligations.MemoryWriters := by
  refine ⟨fun i s t a h _ ha => ?_, fun s t a => s.phaseB_read t a⟩
  rcases exec_mem i s t h with hmem | ⟨b, v, hb, hmem⟩
  · rw [hmem]
  · rw [hmem, Memory.read_write, if_neg (ha b hb)]

end Sys2Proof.Machine

/-! SUPPORT. Decoding and encoding: one equation per format, what a decode says of its bytes, and
the bytes that have no row in the opcode table. -/

namespace Sys2Proof

/-! ### Decoding an encoded instruction -/

/-- Format R: the assembler's operand byte decodes to its register (R81, R83, R92). -/
theorem decode_r {op : Byte} {f : RegIndex → Instr} (h : opcodeShape op = some (.r f))
    (ra : RegIndex) (rest : List Byte) :
    decode (op :: encodeReg ra :: rest) = .ok (f ra, rest) := by
  simp only [decode, h, decodeOperands, regOperand_encodeReg]

/-- Format RR: both operand bytes decode to their registers (R81, R83, R92). -/
theorem decode_rr {op : Byte} {f : RegIndex → RegIndex → Instr} (h : opcodeShape op = some (.rr f))
    (ra rb : RegIndex) (rest : List Byte) :
    decode (op :: encodeReg ra :: encodeReg rb :: rest) = .ok (f ra rb, rest) := by
  simp only [decode, h, decodeOperands, regOperand_encodeReg]

/-- Format RI: the immediate is the whole operand byte (R81, R84, R92). -/
theorem decode_ri {op : Byte} {f : RegIndex → Byte → Instr} (h : opcodeShape op = some (.ri f))
    (ra : RegIndex) (imm8 : Byte) (rest : List Byte) :
    decode (op :: encodeReg ra :: imm8 :: rest) = .ok (f ra imm8, rest) := by
  simp only [decode, h, decodeOperands, regOperand_encodeReg, immOperand]

/-- Settles O2: each instruction's opcode has its row in the table, and the row's format reads back
the operand bytes written for it. -/
theorem decodeOfEncode : Obligations.DecodeOfEncode := by
  intro i rest
  cases i with
  | nop | hlt | ret | inc | inte | iret => rfl
  | prn ra | pra ra | push ra | pop ra | call ra | jmp ra | jeq ra | jne ra =>
    exact decode_r rfl ra rest
  | add ra rb | mul ra rb | div ra rb | comp ra rb | st ra rb => exact decode_rr rfl ra rb rest
  | ldi ra imm8 => exact decode_ri rfl ra imm8 rest

/-! ### Encoding a decoded instruction -/

/-- The row of an opcode makes instructions that the encoder writes with that opcode and with their
operands in order (R81, R87). -/
def Shape.Encodes (op : Byte) : Shape → Prop
  | .n i => encode i = [op]
  | .r f => ∀ a, encode (f a) = [op, encodeReg a]
  | .rr f => ∀ a b, encode (f a b) = [op, encodeReg a, encodeReg b]
  | .ri f => ∀ a v, encode (f a v) = [op, encodeReg a, v]

theorem opcodeTable_encodes : ∀ row ∈ opcodeTable, row.2.Encodes row.1 := by
  simp [opcodeTable, Shape.Encodes, encode, Instr.opcode, encodeOperands]

/-- A decode reads a row's operands (R87). -/
theorem decode_row {op : Byte} {bs rest : List Byte} {i : Instr}
    (h : decode (op :: bs) = .ok (i, rest)) :
    ∃ sh, (op, sh) ∈ opcodeTable ∧ decodeOperands sh bs = .ok (i, rest) := by
  cases hs : opcodeShape op with
  | none => simp [decode, hs] at h
  | some sh => exact ⟨sh, mem_of_opcodeShape op sh hs, by simpa only [decode, hs] using h⟩

/-- What a decode says of its bytes, by format: the operand bytes read, and how the encoder writes
the instruction (R81, R83, R84, R92). -/
theorem decode_cases {op : Byte} {bs rest : List Byte} {i : Instr}
    (h : decode (op :: bs) = .ok (i, rest)) :
    (i.format = .n ∧ bs = rest ∧ encode i = [op]) ∨
    (∃ a, i.format = .r ∧ bs = a :: rest ∧ encode i = [op, encodeReg (regOperand a)]) ∨
    (∃ a b, i.format = .rr ∧ bs = a :: b :: rest ∧
      encode i = [op, encodeReg (regOperand a), encodeReg (regOperand b)]) ∨
    (∃ a v, i.format = .ri ∧ bs = a :: v :: rest ∧
      encode i = [op, encodeReg (regOperand a), v]) := by
  obtain ⟨sh, hrow, hd⟩ := decode_row h
  have hform : sh.HasFormats := opcodeTable_hasFormats _ hrow
  have henc : sh.Encodes op := opcodeTable_encodes _ hrow
  cases sh with
  | n j => cases hd; exact .inl ⟨hform, rfl, henc⟩
  | r f =>
    match bs, hd with
    | a :: bs, hd => cases hd; exact .inr (.inl ⟨a, hform _, rfl, henc _⟩)
  | rr f =>
    match bs, hd with
    | a :: b :: bs, hd => cases hd; exact .inr (.inr (.inl ⟨a, b, hform _ _, rfl, henc _ _⟩))
  | ri f =>
    match bs, hd with
    | a :: v :: bs, hd => cases hd; exact .inr (.inr (.inr ⟨a, v, hform _ _, rfl, henc _ _⟩))

/-- Settles O3: the encoder writes each register operand byte from the register it selects, which
gives the byte back where its bits 7 to 3 are zero. -/
theorem encodeOfDecode : Obligations.EncodeOfDecode := by
  intro bs i rest h hok
  cases bs with
  | nil => cases h
  | cons op bs =>
    obtain ⟨hf, rfl, he⟩ | ⟨a, hf, rfl, he⟩ | ⟨a, b, hf, rfl, he⟩ | ⟨a, v, hf, rfl, he⟩ :=
      decode_cases h
    · rw [he]; rfl
    · rw [hf] at hok
      rw [he, encodeReg_regOperand a hok]; rfl
    · rw [hf] at hok
      obtain ⟨ha, hb⟩ := Bool.and_eq_true_iff.1 hok
      rw [he, encodeReg_regOperand a ha, encodeReg_regOperand b hb]; rfl
    · rw [hf] at hok
      rw [he, encodeReg_regOperand a hok]; rfl

/-! ### What the opcode byte alone fixes -/

/-- LDI's row is the only one of format RI (R81, R87). -/
theorem opcode_of_shape_ri {op : Byte} {f : RegIndex → Byte → Instr}
    (h : opcodeShape op = some (.ri f)) : op = 0x82#8 := by
  have hrow : op = 0x82#8 ∧ f = .ldi := by simpa [opcodeTable] using mem_of_opcodeShape op _ h
  exact hrow.1

/-- Settles O4: a row reads a register operand byte through `regOperand` alone, and LDI's row alone
reads a whole byte. -/
theorem operandHighBitsIgnored : Obligations.OperandHighBitsIgnored := by
  intro op a a' b b' rest ha himm hreg
  have hb : regOperand b = regOperand b' := by
    by_cases hop : op = 0x82#8
    · rw [himm hop]
    · exact hreg hop
  cases hs : opcodeShape op with
  | none => simp only [decode, hs]
  | some sh =>
    cases sh with
    | n i => simp only [decode, hs, decodeOperands, Except.map]
    | r f => simp only [decode, hs, decodeOperands, Except.map, ha]
    | rr f => simp only [decode, hs, decodeOperands, ha, hb]
    | ri f => simp only [decode, hs, decodeOperands, ha, himm (opcode_of_shape_ri hs)]

/-- The format of a row (R81). -/
def Shape.format : Shape → Format
  | .n _ => .n
  | .r _ => .r
  | .rr _ => .rr
  | .ri _ => .ri

/-- An instruction has the format of its opcode's row (R81, R87). -/
theorem opcodeShape_format (i : Instr) :
    (opcodeShape i.opcode).map Shape.format = some i.format := by
  cases i <;> rfl

/-- A decoded instruction has the opcode byte it was decoded from (R82). -/
theorem decode_opcode {op : Byte} {bs rest : List Byte} {i : Instr}
    (h : decode (op :: bs) = .ok (i, rest)) : i.opcode = op := by
  obtain ⟨-, -, he⟩ | ⟨_, -, -, he⟩ | ⟨_, _, -, -, he⟩ | ⟨_, _, -, -, he⟩ := decode_cases h <;>
    exact List.head_eq_of_cons_eq he

/-- Settles O5: both instructions have the opcode byte, whose row fixes the format, and a decode
takes the format's bytes. -/
theorem lengthFromOpcode : Obligations.LengthFromOpcode := by
  intro op as bs i j as' bs' hi hj
  have hop : i.opcode = j.opcode := (decode_opcode hi).trans (decode_opcode hj).symm
  have hformat : i.format = j.format :=
    Option.some.inj (by rw [← opcodeShape_format i, hop, opcodeShape_format j])
  exact ⟨hformat, decode_length op as as' i hi, decode_length op bs bs' j hj⟩

/-! ### Illegal opcodes -/

/-- A byte has no row exactly if the spec does not list it (R87, R90). -/
theorem opcodeShape_eq_none_iff (op : Byte) :
    opcodeShape op = none ↔ op ∉ Machine.definedOpcodes := by
  have hlisted : Machine.definedOpcodes = opcodeTable.map Prod.fst := rfl
  rw [hlisted]
  constructor
  · exact not_mem_of_opcodeShape op
  · intro hop
    cases hs : opcodeShape op with
    | none => rfl
    | some sh => exact absurd (List.mem_map_of_mem (mem_of_opcodeShape op sh hs)) hop

/-- A row refuses its operand bytes only where they are cut short (R85). -/
theorem decodeOperands_error {sh : Shape} {bs : List Byte} {e : DecodeError}
    (h : decodeOperands sh bs = .error e) : e = .operandMissing := by
  unfold decodeOperands at h
  split at h <;> cases h <;> rfl

/-- Settles O6: a byte with a row has no error but a missing operand. -/
theorem illegalExactlyOutsideTable : Obligations.IllegalExactlyOutsideTable := by
  intro op rest
  rw [← opcodeShape_eq_none_iff]
  cases hs : opcodeShape op with
  | none => simp only [decode, hs]
  | some sh =>
    simp only [decode, hs, reduceCtorEq, iff_false]
    intro h
    cases decodeOperands_error h

/-- Settles O1: the decoder evaluated on each byte string. -/
theorem specWordsDecode : Obligations.SpecWordsDecode := by
  unfold Obligations.SpecWordsDecode
  decide

end Sys2Proof

/-! SUPPORT. The instruction a step runs, and the fault of a byte that is no opcode. -/

namespace Sys2Proof.Machine

/-! ### A step up to its phase C -/

/-- A running core at an address whose phase B leaves `u` runs phase C from `u` (R95). -/
theorem step_of_phaseB {s u : State} (hrun : s.status = .running) (hpc : s.pc ≤ 255)
    (hB : s.pollClock.phaseB = .ok u) : step s = u.phaseC := by
  simp only [step_of_running s hrun hpc, State.phasesBC, hB]

/-- A fetch that fails faults in phase C (R85, R90). -/
theorem State.phaseC_of_fetch_error {s : State} {k : FaultKind} (h : s.fetch = .error k) :
    s.phaseC = .next (s.raise k) := by
  simp only [State.phaseC, h]

/-- Settles O7: phase C runs what it fetches, and an unarmed controller reads no clock and takes no
interrupt. -/
theorem stepRunsDecoded : Obligations.StepRunsDecoded := by
  have run : ∀ (s u : State) (i : Instr), s.status = .running → RunsFrom s u i →
      step s = exec i u := by
    intro s u i hrun h
    obtain ⟨hpc, hB, -⟩ := id h
    exact (step_of_phaseB hrun hpc hB).trans (u.phaseC_of_fetch i h.fetch)
  refine ⟨run, fun s i rest hrun hpc harmed hd => run s s i hrun ⟨hpc, ?_, rest, hd⟩⟩
  have hnotDue : ¬ s.interruptDue := by simp [State.interruptDue_iff, harmed]
  rw [State.pollClock_of_not_armed s harmed, s.phaseB_of_not_due hnotDue]

/-- Settles O9: phase A comes before anything else. -/
theorem phaseAFaultsPastEnd : Obligations.PhaseAFaultsPastEnd :=
  fun s hrun hpc => ⟨_, step_of_past_end s hrun hpc, rfl, rfl⟩

/-! ### The illegal opcode -/

/-- An interrupt check from an address leaves PC an address (R240). -/
theorem State.phaseB_pc_le {s u : State} (hpc : s.pc ≤ 255) (hB : s.phaseB = .ok u) :
    u.pc ≤ 255 := by
  rcases State.phaseB_cases _ _ hB with ⟨-, rfl⟩ | ⟨-, he⟩
  · exact hpc
  · exact he.pc_le

/-- A fetch at an address answers IllegalOpcode exactly if the byte there is no opcode of the table
(R90, R223). -/
theorem State.fetch_illegalOpcode_iff (s : State) (hpc : s.pc ≤ 255) :
    s.fetch = .error .illegalOpcode ↔ s.mem.read s.pc ∉ definedOpcodes := by
  rw [← illegalExactlyOutsideTable _ (s.fetchBytes (s.pc + 1) 2), State.fetch,
    s.fetchBytes_head hpc]
  cases decode (s.mem.read s.pc :: s.fetchBytes (s.pc + 1) 2) with
  | ok r => simp
  | error e => cases e <;> simp [decodeFault]

/-- A meaning that faults with OutOfBoundsAccess where a condition holds, and else keeps the status
it began with, raises no other fault. -/
theorem eq_outOfBoundsAccess_of_ite {c : Prop} [Decidable c] {s u t : State} {k : FaultKind}
    (h : (if c then .next (s.raise .outOfBoundsAccess) else .next u :
      Host.Outcome State Fault Refusal) = .next t)
    (hu : u.status = .running) (ht : t.status = .faulted k) : k = .outOfBoundsAccess := by
  split at h
  · cases h; cases ht; rfl
  · cases h; rw [hu] at ht; cases ht

/-- The return from an interrupt faults only where eight pops would take SP past 255 (R204). -/
theorem State.interruptReturn_fault {s : State} {k : FaultKind}
    (h : s.interruptReturn = .error k) : 247 < s.sp.toNat ∧ k = .outOfBoundsAccess := by
  by_cases hsp : 247 < s.sp.toNat
  · cases (s.interruptReturn_error hsp).symm.trans h
    exact ⟨hsp, rfl⟩
  · obtain ⟨t, ht⟩ := s.interruptReturn_ok (by omega)
    cases ht.symm.trans h

@[simp] theorem State.jumpIf_status (s : State) (c : Bool) (ra : RegIndex) :
    (s.jumpIf c ra).status = s.status := by
  cases c <;> rfl

/-- The faults an instruction run from a running core can raise: OutOfBoundsAccess, and DIV's with a
zero divisor (R224, R225, R228). -/
theorem exec_faultKind (i : Instr) (s t : State) (k : FaultKind) (hs : s.status = .running)
    (h : exec i s = .next t) (ht : t.status = .faulted k) :
    k = .outOfBoundsAccess ∨
      (k = .divisionByZero ∧ ∃ ra rb, i = .div ra rb ∧ s.reg rb = 0#8) := by
  have hkept : s.status ≠ .faulted k := by simp [hs]
  cases i with
  | div ra rb =>
    have h := (execDiv_eq s ra rb).symm.trans h
    split at h
    next hz => cases h; cases ht; exact .inr ⟨rfl, ra, rb, rfl, hz⟩
    next => cases h; exact absurd ht hkept
  | push ra => exact .inl (eq_outOfBoundsAccess_of_ite ((execPush_eq s ra).symm.trans h) hs ht)
  | pop ra => exact .inl (eq_outOfBoundsAccess_of_ite ((execPop_eq s ra).symm.trans h) hs ht)
  | call ra => exact .inl (eq_outOfBoundsAccess_of_ite ((execCall_eq s ra).symm.trans h) hs ht)
  | ret => exact .inl (eq_outOfBoundsAccess_of_ite ((execRet_eq s).symm.trans h) hs ht)
  | iret =>
    cases hp : s.pIret with
    | noop => cases (execIret_noop s hp).symm.trans h; exact absurd ht hkept
    | intended =>
      rcases State.finish_next s t _ ((execIret_intended s hp).symm.trans h) with
        hr | ⟨k', hr, rfl⟩
      · have hst : t.status = s.status := (State.interruptReturn_spec s t hr).status
        exact absurd (hst.symm.trans ht) hkept
      · cases ht; exact .inl (State.interruptReturn_fault hr).2
  | add ra rb => cases (execAdd_eq s ra rb).symm.trans h; exact absurd ht hkept
  | mul ra rb => cases (execMul_eq s ra rb).symm.trans h; exact absurd ht hkept
  | jeq ra => cases h; exact absurd ((s.jumpIf_status _ ra).symm.trans ht) hkept
  | jne ra => cases h; exact absurd ((s.jumpIf_status _ ra).symm.trans ht) hkept
  | hlt => cases h; cases ht
  | nop | ldi | prn | pra | comp | jmp | st | inc | inte =>
    cases h; exact absurd ht hkept

/-- Settles O10: the fetch alone raises IllegalOpcode, from the state phase B left. -/
theorem illegalOpcodeExactly : Obligations.IllegalOpcodeExactly := by
  intro s t h
  obtain ⟨hrun, hcases⟩ := step_next s t h
  constructor
  · intro ht
    obtain ⟨-, rfl⟩ | ⟨-, -, -, rfl⟩ | ⟨hpc, u, hB, ⟨k, hf, rfl⟩ | ⟨i, -, hx⟩⟩ := hcases
    · cases ht
    · cases ht
    · cases ht
      have hupc : u.pc ≤ 255 := State.phaseB_pc_le (by simpa using hpc) hB
      exact ⟨hpc, u, hB, hupc, (u.fetch_illegalOpcode_iff hupc).1 hf⟩
    · have hurun : u.status = .running := (BeforeExec.of_phaseB hB).status.trans hrun
      obtain hk | ⟨hk, -⟩ := exec_faultKind i u t _ hurun hx ht <;> cases hk
  · rintro ⟨hpc, u, hB, hupc, hop⟩
    have hf : u.fetch = .error .illegalOpcode := (u.fetch_illegalOpcode_iff hupc).2 hop
    cases (u.phaseC_of_fetch_error hf).symm.trans ((step_of_phaseB hrun hpc hB).symm.trans h)
    rfl

end Sys2Proof.Machine

/-! SUPPORT. The basic instructions NOP, HLT, LDI, PRN and PRA, with what every instruction's
statement needs: its row's decode, its operand fetch, and its control frame. -/

namespace Sys2Proof

/-- The opcode's row reads the bytes after it (R82, R87). -/
theorem decode_of_shape {op : Byte} {sh : Shape} (h : opcodeShape op = some sh)
    (bs : List Byte) : decode (op :: bs) = decodeOperands sh bs := by
  simp only [decode, h]

end Sys2Proof

namespace Sys2Proof.Machine

/-! ### The operand fetch -/

/-- An instruction fetched at an address has the format of the row of the byte there (R81, R82). -/
theorem State.fetch_format {s : State} {i : Instr} {sh : Shape} (hpc : s.pc ≤ 255)
    (hs : opcodeShape (s.mem.read s.pc) = some sh) (h : s.fetch = .ok i) :
    i.format = sh.format := by
  obtain ⟨rest, hd⟩ := (s.fetch_ok i).1 h
  rw [s.fetchBytes_head hpc] at hd
  have hformat : (opcodeShape i.opcode).map Shape.format = some i.format := opcodeShape_format i
  rw [decode_opcode hd, hs] at hformat
  exact (Option.some.inj hformat).symm

/-- An opcode of the table whose operand bytes reach past address 255 faults: what is fetched would
lie inside memory, and the opcode is not illegal (R85, R228). -/
theorem operandFetchFaults_of_shape {op : Byte} {sh : Shape} (hs : opcodeShape op = some sh) :
    OperandFetchFaults op sh.format.length := by
  rintro s hpc hpast rfl
  cases hf : s.fetch with
  | ok i =>
    have hfits : s.pc + i.format.length ≤ 256 := s.fetch_fits i hpc hf
    rw [State.fetch_format hpc hs hf] at hfits
    omega
  | error k =>
    rcases s.fetch_error k hf with rfl | rfl
    · have hillegal := (s.fetch_illegalOpcode_iff hpc).1 hf
      rw [← opcodeShape_eq_none_iff, hs] at hillegal
      cases hillegal
    · exact ⟨_, s.phaseC_of_fetch_error hf, rfl, rfl⟩

/-! ### The control frame -/

/-- A state that differs in memory, registers, PC, FL, status and output trace alone (R40). -/
theorem SameHidden.of_visible {s t : State}
    (h : t = { s with mem := t.mem, regs := t.regs, pc := t.pc, fl := t.fl, status := t.status,
                      output := t.output }) : SameHidden s t :=
  ⟨h ▸ rfl, h ▸ rfl, h ▸ rfl, h ▸ rfl, h ▸ rfl⟩

/-- A state that differs in memory, registers, PC and FL alone. -/
theorem SameControl.of_data {s t : State}
    (h : t = { s with mem := t.mem, regs := t.regs, pc := t.pc, fl := t.fl }) : SameControl s t :=
  ⟨h ▸ rfl, h ▸ rfl, .of_visible (h ▸ rfl)⟩

/-! ### The basic instructions -/

/-- Settles O38: NOP's effect is the advance by its one byte. -/
theorem nopAdvances : Obligations.NopAdvances :=
  ⟨decode_of_shape opcodeShape_nop,
    fun s => ⟨s.advance 1, rfl, rfl, .refl _ _, rfl, fun _ => rfl, .of_data rfl⟩⟩

/-- Settles O39: HLT writes the status alone, and a stopped core takes no step. -/
theorem hltHalts : Obligations.HltHalts := by
  refine ⟨decode_of_shape opcodeShape_hlt, fun s => ⟨s.halt, rfl, rfl, rfl, .refl _ _, rfl,
    fun _ => rfl, rfl, .of_visible rfl, step_of_stopped s.halt ?_⟩⟩
  simp

/-- Settles O40: LDI writes its register and advances PC past its three bytes. -/
theorem ldiLoadsImmediate : Obligations.LdiLoadsImmediate := by
  refine ⟨fun a v rest => decode_of_shape opcodeShape_ldi (a :: v :: rest),
    operandFetchFaults_of_shape opcodeShape_ldi, fun s ra imm8 =>
      ⟨(s.setReg ra imm8).advance 3, rfl, ?_, rfl, ?_, rfl, fun _ => rfl, .of_data rfl⟩⟩
  · exact s.reg_setReg_same ra imm8
  · exact (SameRegsBut.refl [ra] s).setReg ra imm8 (by simp)

/-- Settles O41: PRN appends its event and advances PC past its two bytes. -/
theorem prnEmitsDecimal : Obligations.PrnEmitsDecimal :=
  ⟨fun a rest => decode_of_shape opcodeShape_prn (a :: rest),
    operandFetchFaults_of_shape opcodeShape_prn, fun s ra =>
      ⟨(s.emit .decimal (s.reg ra)).advance 2, rfl, rfl, rfl, .refl _ _, rfl, fun _ => rfl, rfl,
        .of_visible rfl⟩⟩

/-- Settles O42: PRA appends its event and advances PC past its two bytes. -/
theorem praEmitsChar : Obligations.PraEmitsChar :=
  ⟨fun a rest => decode_of_shape opcodeShape_pra (a :: rest),
    operandFetchFaults_of_shape opcodeShape_pra, fun s ra =>
      ⟨(s.emit .char (s.reg ra)).advance 2, rfl, rfl, rfl, .refl _ _, rfl, fun _ => rfl, rfl,
        .of_visible rfl⟩⟩

end Sys2Proof.Machine

/-! SUPPORT. The ALU's results and its instructions ADD, MUL, DIV and COMP, with the fault of a zero
divisor. -/

namespace Sys2Proof.Machine

/-! ### Division by zero -/

/-- DIV with a zero divisor raises DivisionByZero (R142, R225). -/
theorem exec_div_zero (s : State) (ra rb : RegIndex) (hz : s.reg rb = 0#8) :
    exec (.div ra rb) s = .next (s.raise .divisionByZero) :=
  (execDiv_eq s ra rb).trans (if_pos hz)

/-- DIV with a nonzero divisor writes the quotient and advances PC (R142). -/
theorem exec_div_ne_zero (s : State) (ra rb : RegIndex) (hnz : s.reg rb ≠ 0#8) :
    exec (.div ra rb) s = .next ((s.setReg ra (s.reg ra / s.reg rb)).advance 3) :=
  (execDiv_eq s ra rb).trans (if_neg hnz)

/-- Settles O12: phases A and B and the fetch raise other faults, and of the instructions DIV alone
raises this one. -/
theorem divisionByZeroExactly : Obligations.DivisionByZeroExactly := by
  intro s t h
  obtain ⟨hrun, hcases⟩ := step_next s t h
  constructor
  · intro ht
    obtain ⟨-, rfl⟩ | ⟨-, -, -, rfl⟩ | ⟨hpc, u, hB, ⟨k, hf, rfl⟩ | ⟨i, hf, hx⟩⟩ := hcases
    · cases ht
    · cases ht
    · cases ht
      obtain hk | hk := u.fetch_error _ hf <;> cases hk
    · have hurun : u.status = .running := (BeforeExec.of_phaseB hB).status.trans hrun
      obtain hk | ⟨-, ra, rb, rfl, hz⟩ := exec_faultKind i u t _ hurun hx ht
      · cases hk
      · exact ⟨u, ra, rb, ⟨hpc, hB, (u.fetch_ok _).1 hf⟩, hz⟩
  · rintro ⟨u, ra, rb, hr, hz⟩
    have hstep : step s = exec (.div ra rb) u := stepRunsDecoded.1 s u _ hrun hr
    cases (hstep.trans (exec_div_zero u ra rb hz)).symm.trans h
    rfl

/-! ### The ALU's results -/

/-- The divider's `dz` is 1 exactly on a zero divisor (R134). -/
theorem aluDz_divide (b : Byte) : aluDz .divide b = decide (b = 0#8) := rfl

/-- Where `dz` is 0 the divider gives the quotient (R134). -/
theorem aluResult_divide_of_ne_zero (a b : Byte) (hnz : b ≠ 0#8) :
    aluResult .divide a b = some (a / b) := by
  simp [aluResult, aluDz_divide, hnz]

/-- The difference of two bytes as integers, reduced modulo 256 (R132). -/
theorem toNat_byte_sub (a b : Byte) :
    ((a - b).toNat : Int) = ((a.toNat : Int) - (b.toNat : Int)) % 256 := by
  have hb := b.isLt
  rw [BitVec.toNat_sub]
  omega

/-- Settles O43: each operation's byte is the exact result reduced, and the divider alone has a
`dz`. -/
theorem aluResults : Obligations.AluResults := by
  refine fun a b => ⟨⟨a + b, rfl, rfl, BitVec.toNat_add a b⟩,
    ⟨a - b, rfl, rfl, toNat_byte_sub a b⟩, ⟨a * b, rfl, rfl, BitVec.toNat_mul a b⟩, ?_, ?_⟩
  · rintro rfl
    exact ⟨rfl, rfl⟩
  · exact fun hnz => ⟨a / b, aluResult_divide_of_ne_zero a b hnz,
      (aluDz_divide b).trans (decide_eq_false hnz), BitVec.toNat_udiv⟩

/-! ### ADD, MUL and DIV -/

/-- The effect and the frame of an instruction that writes the byte `v` to the register `ra` and
takes PC past its three bytes (R140 to R142). -/
theorem effect_of_setReg {i : Instr} {s : State} {ra : RegIndex} {v : Byte} {n : Nat}
    (hx : exec i s = .next ((s.setReg ra v).advance 3)) (hv : v.toNat = n) :
    ∃ t, exec i s = .next t ∧ (t.reg ra).toNat = n ∧ t.pc = s.pc + 3 ∧
      SameRegsBut [ra] s t ∧ t.fl = s.fl ∧ SameMem s t ∧ SameControl s t := by
  refine ⟨_, hx, ?_, rfl, ?_, rfl, fun _ => rfl, .of_data rfl⟩
  · rw [State.advance_reg, State.reg_setReg_same, hv]
  · exact (SameRegsBut.refl [ra] s).setReg ra v (by simp)

/-- Settles O44: ADD writes the bytes' sum, which is reduced modulo 256. -/
theorem addWrapsModulo256 : Obligations.AddWrapsModulo256 :=
  ⟨fun a b rest => decode_of_shape opcodeShape_add (a :: b :: rest),
    operandFetchFaults_of_shape opcodeShape_add, fun s ra rb =>
      effect_of_setReg (execAdd_eq s ra rb) (BitVec.toNat_add _ _)⟩

/-- Settles O45: MUL writes the bytes' product, which is reduced modulo 256. -/
theorem mulKeepsLowByte : Obligations.MulKeepsLowByte :=
  ⟨fun a b rest => decode_of_shape opcodeShape_mul (a :: b :: rest),
    operandFetchFaults_of_shape opcodeShape_mul, fun s ra rb =>
      effect_of_setReg (execMul_eq s ra rb) (BitVec.toNat_mul _ _)⟩

/-- Settles O46: DIV writes the bytes' quotient, or raises its fault on a zero divisor. -/
theorem divFloorsOrFaults : Obligations.DivFloorsOrFaults :=
  ⟨fun a b rest => decode_of_shape opcodeShape_div (a :: b :: rest),
    operandFetchFaults_of_shape opcodeShape_div,
    fun s ra rb hnz => effect_of_setReg (exec_div_ne_zero s ra rb hnz) BitVec.toNat_udiv,
    fun s ra rb hz => ⟨_, exec_div_zero s ra rb hz, rfl, rfl⟩⟩

/-! ### COMP -/

/-- Equal bytes set the Equal bit alone (R143). -/
theorem compareFlags_of_eq {a b : Byte} (h : a.toNat = b.toNat) : compareFlags a b = 0b001#3 :=
  if_pos (BitVec.eq_of_toNat_eq h)

/-- A greater first byte sets the Greater-than bit alone (R143). -/
theorem compareFlags_of_gt {a b : Byte} (h : b.toNat < a.toNat) : compareFlags a b = 0b010#3 := by
  have hne : a ≠ b := fun e => h.ne' (congrArg BitVec.toNat e)
  rw [compareFlags, if_neg hne, if_pos (BitVec.lt_def.2 h)]

/-- A smaller first byte sets the Less-than bit alone (R143). -/
theorem compareFlags_of_lt {a b : Byte} (h : a.toNat < b.toNat) : compareFlags a b = 0b100#3 := by
  have hne : a ≠ b := fun e => h.ne (congrArg BitVec.toNat e)
  have hngt : ¬ b < a := fun hlt => h.asymm (BitVec.lt_def.1 hlt)
  rw [compareFlags, if_neg hne, if_neg hngt]

/-- Settles O47: COMP writes the flags of its comparison and advances PC past its three bytes. -/
theorem compSetsOneFlag : Obligations.CompSetsOneFlag :=
  ⟨fun a b rest => decode_of_shape opcodeShape_comp (a :: b :: rest),
    operandFetchFaults_of_shape opcodeShape_comp, fun s ra rb =>
      ⟨(s.setFl (compareFlags (s.reg ra) (s.reg rb))).advance 3, rfl, compareFlags_of_eq,
        compareFlags_of_gt, compareFlags_of_lt, rfl, .refl _ _, fun _ => rfl, .of_data rfl⟩⟩

end Sys2Proof.Machine

/-! SUPPORT. The stack instructions PUSH, POP, CALL and RET with their round trips, and the jumps
JMP, JEQ and JNE. -/

namespace Sys2Proof.Machine

/-- An outcome that raises a fault (R222). -/
theorem FaultsWith.of_raise {k : FaultKind} {s : State} {o : Host.Outcome State Fault Refusal}
    (h : o = .next (s.raise k)) : FaultsWith k s o :=
  ⟨_, h, rfl, rfl⟩

/-- A store changes no byte but the one it writes (R67). -/
theorem SameMemBut.storeByte (s : State) (a v : Byte) : SameMemBut a s (s.storeByte a v) :=
  fun b hb => (s.mem.read_write a.toNat v b).trans (if_neg hb)

/-- A write of SP changes no other register. -/
theorem SameRegsBut.setSp (s : State) (v : Byte) : SameRegsBut [7#3] s (s.setReg spIndex v) :=
  (SameRegsBut.refl [7#3] s).setReg spIndex v (by simp)

/-- A decremented SP can be incremented again (R160, R161). -/
theorem byte_sub_one_ne_max {a : Byte} (h : a ≠ 0#8) : a - 1#8 ≠ 255#8 := by
  rw [byte_ne_max, byte_sub_one a h]
  exact Nat.sub_le_sub_right (byte_toNat_le a) 1

/-! ### PUSH -/

/-- PUSH with SP above 0 stores its register, as read after the decrement, at the new SP (R162). -/
theorem exec_push_of_ne {s : State} (ra : RegIndex) (hsp : s.sp ≠ 0#8) :
    exec (.push ra) s = .next (((s.setReg spIndex (s.sp - 1#8)).storeByte (s.sp - 1#8)
      (if ra = spIndex then s.sp - 1#8 else s.reg ra)).advance 2) := by
  rw [← s.reg_setReg spIndex ra (s.sp - 1#8)]
  exact (execPush_eq s ra).trans (if_neg hsp)

/-- Settles O48: PUSH writes SP and the byte there. -/
theorem pushStoresBelow : Obligations.PushStoresBelow :=
  ⟨fun a rest => decode_of_shape opcodeShape_push (a :: rest),
    operandFetchFaults_of_shape opcodeShape_push,
    fun s ra hsp => ⟨_, exec_push_of_ne ra hsp, s.reg_setReg_same spIndex _,
      State.loadByte_storeByte_same _ _ _, SameMemBut.storeByte _ _ _, rfl, .setSp s _, rfl,
      .of_data rfl⟩,
    fun s ra hsp => .of_raise ((execPush_eq s ra).trans (if_pos hsp))⟩

/-! ### POP -/

/-- A write of another register leaves SP. -/
theorem State.sp_setReg_of_ne (s : State) {ra : RegIndex} (v : Byte) (hra : ra ≠ 7#3) :
    (s.setReg ra v).sp = s.sp :=
  s.reg_setReg_ne ra spIndex v hra.symm

/-- POP of a register other than R7 loads it and increments SP (R163). -/
theorem exec_pop_of_ne {s : State} {ra : RegIndex} (hra : ra ≠ 7#3) (hsp : s.sp ≠ 255#8) :
    exec (.pop ra) s =
      .next (((s.setReg ra (s.loadByte s.sp)).setReg spIndex (s.sp + 1#8)).advance 2) := by
  have h := execPop_eq s ra
  rw [s.sp_setReg_of_ne _ hra, if_neg hsp] at h
  exact h

/-- POP of a register other than R7 faults where SP is 255 (R163). -/
theorem exec_pop_of_max {s : State} {ra : RegIndex} (hra : ra ≠ 7#3) (hsp : s.sp = 255#8) :
    exec (.pop ra) s = .next (s.raise .outOfBoundsAccess) :=
  (execPop_eq s ra).trans (if_pos ((s.sp_setReg_of_ne _ hra).trans hsp))

/-- POP R7 increments the byte it popped, and tests that byte for its fault (R163). -/
theorem exec_pop_sp (s : State) :
    exec (.pop 7#3) s =
      if s.loadByte s.sp = 255#8 then .next (s.raise .outOfBoundsAccess)
      else .next ((s.setReg spIndex (s.loadByte s.sp + 1#8)).advance 2) := by
  have h := execPop_eq s spIndex
  rw [State.sp, State.reg_setReg_same, State.setReg_setReg_same] at h
  exact h

/-- Settles O49: POP writes its register before SP, so that of POP R7's two writes the increment of
the popped byte remains. -/
theorem popLoadsTop : Obligations.PopLoadsTop := by
  refine ⟨fun a rest => decode_of_shape opcodeShape_pop (a :: rest),
    operandFetchFaults_of_shape opcodeShape_pop, fun s ra hra hsp => ?_,
    fun s ra hra hsp => .of_raise (exec_pop_of_max hra hsp), fun s hv => ?_,
    fun s hv => .of_raise ((exec_pop_sp s).trans (if_pos hv))⟩
  · refine ⟨_, exec_pop_of_ne hra hsp, ?_, State.reg_setReg_same _ spIndex _, rfl, ?_, rfl,
      fun _ => rfl, .of_data rfl⟩
    · rw [State.advance_reg, State.reg_setReg_ne _ _ _ _ hra, State.reg_setReg_same]
      rfl
    · exact ((SameRegsBut.refl _ s).setReg ra _ (by simp)).setReg spIndex _ (by simp)
  · exact ⟨_, (exec_pop_sp s).trans (if_neg hv), s.reg_setReg_same spIndex _, rfl, .setSp s _, rfl,
      fun _ => rfl, .of_data rfl⟩

/-- Settles O58: what PUSH stored is what POP loads, and SP falls and rises by one. -/
theorem pushPopRoundTrip : Obligations.PushPopRoundTrip := by
  intro s ra hra hsp
  obtain ⟨-, -, push, -⟩ := pushStoresBelow
  obtain ⟨-, -, pop, -⟩ := popLoadsTop
  obtain ⟨t, hpush, htsp, htop, htmem, htpc, htregs, -, -⟩ := push s ra hsp
  obtain ⟨u, hpop, hura, husp, hupc, huregs, -, humem, -⟩ :=
    pop t ra hra (htsp ▸ byte_sub_one_ne_max hsp)
  refine ⟨t, u, hpush, hpop, fun r _ => ?_, by omega, fun a ha => (humem a).trans (htmem a ha)⟩
  by_cases hr : r = ra
  · rw [hr, hura, htsp, htop, if_neg hra]
  by_cases hr7 : r = 7#3
  · rw [hr7]
    exact husp.trans ((congrArg (· + 1#8) htsp).trans (BitVec.sub_add_cancel _ _))
  · exact (huregs r (by simp [hr, hr7])).trans (htregs r (by simp [hr7]))

/-! ### CALL and RET -/

/-- CALL with a return address in memory and SP above 0 pushes it and jumps through its register, as
read after the decrement (R164). -/
theorem exec_call_of_fits {s : State} (ra : RegIndex) (hpc : s.pc + 2 ≤ 255) (hsp : s.sp ≠ 0#8) :
    exec (.call ra) s = .next (((s.setReg spIndex (s.sp - 1#8)).storeByte (s.sp - 1#8)
      (BitVec.ofNat 8 (s.pc + 2))).setPc
        (if ra = spIndex then s.sp - 1#8 else s.reg ra).toNat) := by
  rw [← s.reg_setReg spIndex ra (s.sp - 1#8)]
  exact (execCall_eq s ra).trans (if_neg (not_or.2 ⟨Nat.not_lt.2 hpc, hsp⟩))

/-- A return address in memory is kept whole by its byte (R164). -/
theorem toNat_returnByte {n : Nat} (h : n ≤ 255) : (BitVec.ofNat 8 n).toNat = n := by
  rw [BitVec.toNat_ofNat]
  exact Nat.mod_eq_of_lt (Nat.lt_succ_of_le h)

/-- Settles O50: CALL writes SP, the byte there and PC. -/
theorem callPushesReturn : Obligations.CallPushesReturn := by
  refine ⟨fun a rest => decode_of_shape opcodeShape_call (a :: rest),
    operandFetchFaults_of_shape opcodeShape_call, fun s ra hpc hsp => ?_,
    fun s ra hpc => .of_raise ((execCall_eq s ra).trans (if_pos (.inl hpc))),
    fun s ra hsp => .of_raise ((execCall_eq s ra).trans (if_pos (.inr hsp)))⟩
  refine ⟨_, exec_call_of_fits ra hpc hsp, s.reg_setReg_same spIndex _, ?_,
    SameMemBut.storeByte _ _ _, rfl, .setSp s _, rfl, .of_data rfl⟩
  rw [State.setPc_mem, State.storeByte_mem, Memory.read_write, if_pos rfl, toNat_returnByte hpc]

/-- Settles O51: RET writes PC, the popped cell and SP. -/
theorem retPopsAndClears : Obligations.RetPopsAndClears :=
  ⟨decode_of_shape opcodeShape_ret,
    fun s hsp => ⟨_, (execRet_eq s).trans (if_neg hsp), rfl, s.loadByte_storeByte_same s.sp 0#8,
      SameMemBut.storeByte s s.sp 0#8, s.reg_setReg_same spIndex _, .setSp s _, rfl, .of_data rfl⟩,
    fun s hsp => .of_raise ((execRet_eq s).trans (if_pos hsp))⟩

/-- Settles O59: the byte RET pops is the return address CALL pushed, and SP falls and rises by
one. -/
theorem callThenRetReturns : Obligations.CallThenRetReturns := by
  intro s t u ra hpc hsp hcall husp hutop
  obtain ⟨-, -, call, -⟩ := callPushesReturn
  obtain ⟨-, ret, -⟩ := retPopsAndClears
  obtain ⟨t', hcall', htsp, htop, -⟩ := call s ra hpc hsp
  cases hcall'.symm.trans hcall
  have husp' : u.sp = s.sp - 1#8 := husp.trans htsp
  obtain ⟨v, hret, hvpc, -, -, hvsp, -⟩ := ret u (husp' ▸ byte_sub_one_ne_max hsp)
  refine ⟨v, hret, ?_, ?_⟩
  · rw [hvpc, husp, hutop, htsp, htop]
  · rw [hvsp, husp', BitVec.sub_add_cancel]

/-! ### The jumps -/

/-- What a state that differs in PC alone keeps. -/
theorem frame_of_pc {s t : State} (h : t = s.setPc t.pc) :
    SameRegsBut [] s t ∧ t.fl = s.fl ∧ SameMem s t ∧ SameControl s t := by
  rw [h]
  exact ⟨.refl _ _, rfl, fun _ => rfl, .of_data rfl⟩

/-- A conditional jump, taken or not, writes PC alone (R167, R168). -/
theorem State.jumpIf_eq_setPc (s : State) (c : Bool) (ra : RegIndex) :
    s.jumpIf c ra = s.setPc (s.jumpIf c ra).pc := by
  cases c <;> rfl

/-- A jump is taken where its condition holds (R167, R168). -/
theorem State.jumpIf_pc_of_true (s : State) {c : Bool} (ra : RegIndex) (h : c = true) :
    (s.jumpIf c ra).pc = (s.reg ra).toNat := by
  rw [h]
  rfl

/-- A jump falls through where its condition fails (R167, R168). -/
theorem State.jumpIf_pc_of_false (s : State) {c : Bool} (ra : RegIndex) (h : c = false) :
    (s.jumpIf c ra).pc = s.pc + 2 := by
  rw [h]
  rfl

/-- Settles O52: JMP writes PC alone. -/
theorem jmpJumps : Obligations.JmpJumps :=
  ⟨fun a rest => decode_of_shape opcodeShape_jmp (a :: rest),
    operandFetchFaults_of_shape opcodeShape_jmp,
    fun s ra => ⟨s.setPc (s.jumpTarget ra), rfl, rfl, frame_of_pc rfl⟩⟩

/-- Settles O53: JEQ is the conditional jump on FL.E. -/
theorem jeqJumpsOnEqual : Obligations.JeqJumpsOnEqual :=
  ⟨fun a rest => decode_of_shape opcodeShape_jeq (a :: rest),
    operandFetchFaults_of_shape opcodeShape_jeq,
    fun s ra => ⟨s.jumpIf s.flagE ra, rfl, s.jumpIf_pc_of_true ra, s.jumpIf_pc_of_false ra,
      frame_of_pc (s.jumpIf_eq_setPc _ ra)⟩⟩

/-- Settles O54: JNE is the conditional jump on the negation of FL.E. -/
theorem jneJumpsOnNotEqual : Obligations.JneJumpsOnNotEqual :=
  ⟨fun a rest => decode_of_shape opcodeShape_jne (a :: rest),
    operandFetchFaults_of_shape opcodeShape_jne,
    fun s ra => ⟨s.jumpIf (!s.flagE) ra, rfl,
      fun h => s.jumpIf_pc_of_true ra (congrArg not h),
      fun h => s.jumpIf_pc_of_false ra (congrArg not h),
      frame_of_pc (s.jumpIf_eq_setPc _ ra)⟩⟩

end Sys2Proof.Machine

/-! SUPPORT. The store instruction ST. -/

namespace Sys2Proof.Machine

/-- A fetch of one byte at a byte's address reads the cell there (R73). -/
theorem State.fetchBytes_one (s : State) (a : Byte) :
    s.fetchBytes a.toNat 1 = [s.mem.read a.toNat] :=
  s.fetchBytes_succ a.toNat 0 (byte_toNat_le a)

/-- Settles O55: ST's effect is one store and the advance past its three bytes, and a fetch reads
the memory that the store leaves. -/
theorem stStores : Obligations.StStores := by
  refine ⟨fun a b rest => decode_of_shape opcodeShape_st (a :: b :: rest),
    operandFetchFaults_of_shape opcodeShape_st, fun s ra rb => ?_⟩
  have hread : (s.storeByte (s.storeAddress ra) (s.reg rb)).mem.read (s.storeAddress ra).toNat =
      s.reg rb := s.loadByte_storeByte_same _ _
  refine ⟨(s.storeByte (s.storeAddress ra) (s.reg rb)).advance 3, rfl, rfl, hread,
    .storeByte _ _ _, ?_, rfl, .refl _ _, rfl, .of_data rfl⟩
  rw [State.fetchBytes_one, State.advance_mem, hread]

end Sys2Proof.Machine

/-! SUPPORT. The reserved instructions: INC, INTE and IRET in mode noop, which do nothing, and IRET
in mode intended, which undoes an interrupt entry. -/

namespace Sys2Proof.Machine

/-! ### Doing nothing -/

/-- Phase C at the opcode byte of a format N row runs the row's instruction (R81, R95). -/
theorem State.phaseC_of_shape_n {s : State} {i : Instr} (hpc : s.pc ≤ 255)
    (hs : opcodeShape (s.mem.read s.pc) = some (.n i)) : s.phaseC = exec i s := by
  have hdecode : decode (s.fetchBytes s.pc maxLength) = .ok (i, s.fetchBytes (s.pc + 1) 2) := by
    rw [s.fetchBytes_head hpc]
    exact decode_of_shape hs _
  exact s.phaseC_of_fetch i ((s.fetch_ok i).2 ⟨_, hdecode⟩)

/-- Settles O56: the three rows are of format N, and their meanings answer the state given. -/
theorem reservedDoNothing : Obligations.ReservedDoNothing := by
  refine ⟨decode_of_shape opcodeShape_inc, decode_of_shape opcodeShape_inte,
    decode_of_shape opcodeShape_iret, fun s => ⟨rfl, rfl⟩, execIret_noop, ?_, ?_⟩
  · rintro s hpc (hop | hop)
    · exact State.phaseC_of_shape_n (i := .inc) hpc (hop ▸ opcodeShape_inc)
    · exact State.phaseC_of_shape_n (i := .inte) hpc (hop ▸ opcodeShape_inte)
  · intro s hpc hop hp
    have hrun : s.phaseC = exec .iret s := State.phaseC_of_shape_n hpc (hop ▸ opcodeShape_iret)
    exact hrun.trans (execIret_noop s hp)

/-! ### The return from an interrupt -/

/-- IRET in mode intended with eight bytes to pop returns (R204). -/
theorem exec_iret_returns {s : State} (hp : s.pIret = .intended) (hsp : s.sp.toNat ≤ 247) :
    ∃ t, exec .iret s = .next t ∧ Returned s t := by
  obtain ⟨t, ht⟩ := s.interruptReturn_ok hsp
  have hexec : exec .iret s = s.finish (.ok t) := ht ▸ execIret_intended s hp
  exact ⟨t, hexec, s.interruptReturn_spec t ht⟩

/-- The `k`-th byte popped is that of R5 less `k` (R204). -/
theorem Returned.reg_eq_read {s t : State} (h : Returned s t) (r : RegIndex) (k : Nat)
    (hk : k + r.toNat = 5) : t.reg r = s.mem.read (s.sp.toNat + k) := by
  rw [h.reg r (by omega), ← hk, ← Nat.add_assoc, Nat.add_sub_cancel]

/-- The eight pops add 8 to SP as a byte too, since they leave it in range (R161, R204). -/
theorem Returned.sp_eq {s t : State} (h : Returned s t) : t.sp = s.sp + 8#8 := by
  have hroom := h.room
  apply BitVec.eq_of_toNat_eq
  rw [h.sp, BitVec.toNat_add, BitVec.toNat_ofNat]
  omega

/-- Settles O57: IRET is the return from an interrupt, which faults where SP is above 247. -/
theorem iretPopsContext : Obligations.IretPopsContext := by
  refine ⟨fun s hp hsp => ?_, fun s hp hsp => ?_⟩
  · obtain ⟨t, hexec, h⟩ := exec_iret_returns hp hsp
    exact ⟨t, hexec, h.reg_eq_read 5#3 0 rfl, h.reg_eq_read 4#3 1 rfl, h.reg_eq_read 3#3 2 rfl,
      h.reg_eq_read 2#3 3 rfl, h.reg_eq_read 1#3 4 rfl, h.reg_eq_read 0#3 5 rfl, h.fl, h.pc, h.ien,
      h.sp_eq, h.is, fun _ => by rw [h.mem], h.lt, h.status, h.output, h.pIret, h.clock,
      h.clockReads⟩
  · have hexec : exec .iret s = s.finish (.error .outOfBoundsAccess) :=
      s.interruptReturn_error hsp ▸ execIret_intended s hp
    exact .of_raise hexec

/-! ### The return undoes the entry -/

/-- FL comes back from the byte it is pushed as (R33, R204). -/
theorem flagsOfByte_flagsByte (v : FlagBits) : flagsOfByte (flagsByte v) = v := by
  revert v; decide

/-- Every register but IS is SP or one that an entry pushes (R241). -/
theorem regIndex_sp_or_pushed {r : RegIndex} (hr : r ∉ [isIndex]) : r = spIndex ∨ r.toNat < 6 := by
  revert r; decide

section
variable {s t u : State} {now : Int} (he : Entered s now t) (hr : Returned t u)
include he hr

/-- Eight pops raise SP by what eight pushes lowered it (R204, R241). -/
theorem Returned.sp_of_entered : u.sp = s.sp := by
  apply BitVec.eq_of_toNat_eq
  rw [hr.sp, he.sp, Nat.sub_add_cancel he.room]

/-- The register popped is read where it was pushed, and SP is back (R204, R241). -/
theorem Returned.regs_of_entered : SameRegsBut [isIndex] s u := by
  have hsp := he.sp
  have hroom := he.room
  intro r hne
  rcases regIndex_sp_or_pushed hne with rfl | hpushed
  · exact hr.sp_of_entered he
  · have hslot : t.sp.toNat + 5 - r.toNat = s.sp.toNat - 3 - r.toNat := by omega
    rw [hr.reg r hpushed, hslot, he.savedReg r hpushed]

/-- FL is read where it was pushed (R204, R241). -/
theorem Returned.fl_of_entered : u.fl = s.fl := by
  have hsp := he.sp
  have hroom := he.room
  have hslot : t.sp.toNat + 6 = s.sp.toNat - 2 := by omega
  rw [hr.fl, hslot, he.savedFl, flagsOfByte_flagsByte]

/-- PC is read where it was pushed, and its byte keeps an address whole (R204, R241). -/
theorem Returned.pc_of_entered (hpc : s.pc ≤ 255) : u.pc = s.pc := by
  have hsp := he.sp
  have hroom := he.room
  have hslot : t.sp.toNat + 7 = s.sp.toNat - 1 := by omega
  rw [hr.pc, hslot, he.savedPc, toNat_returnByte hpc]

end

/-- Settles O37: an interrupt that is due is entered, which leaves eight bytes to pop. -/
theorem iretUndoesEntry : Obligations.IretUndoesEntry := by
  intro s t hp hpc hdue hB
  have he : Entered s s.clock t :=
    s.interruptEntry_spec t _ ((s.phaseB_of_due hdue).symm.trans hB)
  have hroom : t.sp.toNat ≤ 247 := by
    have hsp := byte_toNat_le s.sp
    rw [he.sp]
    omega
  obtain ⟨u, hexec, hr⟩ := exec_iret_returns (he.pIret.trans hp) hroom
  exact ⟨u, hexec, hr.regs_of_entered he, hr.is.trans he.is, hr.fl_of_entered he,
    hr.pc_of_entered he hpc, hr.ien, hr.lt.trans he.lt, fun _ => by rw [hr.mem],
    hr.status.trans he.status, hr.output.trans he.output⟩

end Sys2Proof.Machine

/-! SUPPORT. The interrupt controller's step: the bytes an entry pushes, the entry of an interrupt
that is due, and the steps that take none. -/

namespace Sys2Proof.Machine

/-! ### The bytes an entry pushes (R241) -/

/-- The byte an entry pushes for a register, by its distance below SP (R241). -/
theorem Entered.read_savedReg {s t : State} {now : Int} (h : Entered s now t) (r : RegIndex)
    (hr : r.toNat < 6) : t.mem.read (s.sp.toNat - (3 + r.toNat)) = s.reg r :=
  Nat.sub_sub _ _ _ ▸ h.savedReg r hr

/-- An entry pushes the context in order, each byte below the last (R238, R241). -/
theorem Entered.read_context {s t : State} {now : Int} (h : Entered s now t) :
    ∀ i < 8, t.mem.read (s.sp.toNat - (i + 1)) = s.context.getD i 0#8
  | 0, _ => h.savedPc
  | 1, _ => h.savedFl
  | 2, _ => h.read_savedReg 0#3 (by decide)
  | 3, _ => h.read_savedReg 1#3 (by decide)
  | 4, _ => h.read_savedReg 2#3 (by decide)
  | 5, _ => h.read_savedReg 3#3 (by decide)
  | 6, _ => h.read_savedReg 4#3 (by decide)
  | 7, _ => h.read_savedReg 5#3 (by decide)

/-- The eight pushes take 8 from SP as a byte too, since they leave it in range (R160, R241). -/
theorem Entered.sp_eq {s t : State} {now : Int} (h : Entered s now t) : t.sp = s.sp - 8#8 := by
  have hroom := h.room
  apply BitVec.eq_of_toNat_eq
  rw [h.sp, BitVec.toNat_sub, BitVec.toNat_ofNat]
  omega

/-- An interrupt that is due and has room is entered in phase B (R238). -/
theorem State.phaseB_entered {s : State} (hdue : s.interruptDue) (hroom : 8 ≤ s.sp.toNat) :
    ∃ u, s.phaseB = .ok u ∧ Entered s s.clock u := by
  obtain ⟨u, hu⟩ := s.interruptEntry_ok s.clock hroom
  exact ⟨u, (s.phaseB_of_due hdue).trans hu, s.interruptEntry_spec u _ hu⟩

/-- Settles O36: 0xF8 is the slot of one of the first seven bytes pushed where SP is 249 or more. -/
theorem vectorReadAfterPushes : Obligations.VectorReadAfterPushes := by
  intro s t hdue hsp hB
  have he : Entered s s.clock t :=
    s.interruptEntry_spec t _ ((s.phaseB_of_due hdue).symm.trans hB)
  have hmax := byte_toNat_le s.sp
  have hslot : Config.vectorAddr.toNat = s.sp.toNat - (s.sp.toNat - 249 + 1) := by
    have hvector : Config.vectorAddr.toNat = 248 := rfl
    omega
  rw [he.pc, State.loadByte, hslot, he.read_context _ (by omega)]
  rfl

/-! ### The reading of the clock -/

theorem State.pollClock_sp (s : State) : s.pollClock.sp = s.sp := s.pollClock_reg spIndex

theorem State.pollClock_context (s : State) : s.pollClock.context = s.context := by
  simp only [State.context, State.pollClock_pc, State.pollClock_fl, State.pollClock_reg]

/-! ### A step with an interrupt due, and one without -/

/-- Settles O32: phase B enters from the state with the clock read, which has the registers, memory,
PC and FL of the step's. -/
theorem interruptEntrySavesContext : Obligations.InterruptEntrySavesContext := by
  intro s hrun hpc hdue hroom
  have hsp := s.pollClock_sp
  obtain ⟨u, hB, he⟩ := State.phaseB_entered hdue (by rwa [hsp])
  have hpushed := he.read_context
  rw [hsp, s.pollClock_context] at hpushed
  have hmem := he.mem
  rw [hsp, s.pollClock_mem] at hmem
  refine ⟨u, hB, step_of_phaseB hrun hpc hB, hpushed 0 (by decide), hpushed 1 (by decide),
    hpushed 2 (by decide), hpushed 3 (by decide), hpushed 4 (by decide), hpushed 5 (by decide),
    hpushed 6 (by decide), hpushed 7 (by decide), hmem,
    he.sp_eq.trans (congrArg (· - 8#8) hsp), he.is, fun r hr => (he.regs r hr).trans (s.pollClock_reg r), he.ien,
    he.lt.trans (s.pollClock_clock_of_due hdue), he.pc, he.fl.trans s.pollClock_fl,
    he.status.trans s.pollClock_status, he.output.trans s.pollClock_output,
    he.pIret.trans s.pollClock_pIret⟩

/-- Settles O33: the eight pushes without their room fault in phase B. -/
theorem interruptEntryNeedsRoom : Obligations.InterruptEntryNeedsRoom := by
  intro s hrun hpc hdue hroom
  have hB : s.pollClock.phaseB = .error .outOfBoundsAccess :=
    (State.phaseB_error_iff _ _).2 ⟨hdue, s.pollClock_sp.symm ▸ hroom, rfl⟩
  have hstep : step s = .next (s.pollClock.raise .outOfBoundsAccess) := by
    rw [step_of_running s hrun hpc, State.phasesBC, hB]
  exact ⟨_, hstep, rfl, s.pollClock_output⟩

/-- A step whose clock reading leaves no interrupt due is phase C from that reading (R236, R237). -/
theorem step_of_not_due {s : State} (hrun : s.status = .running) (hpc : s.pc ≤ 255)
    (hnot : ¬ s.pollClock.interruptDue) : step s = s.pollClock.phaseC :=
  step_of_phaseB hrun hpc (State.phaseB_of_not_due _ hnot)

/-- Settles O34: an unarmed controller reads no clock, and an armed one finds its second not
over. -/
theorem noInterruptUnlessDue : Obligations.NoInterruptUnlessDue := by
  refine fun s hrun hpc => ⟨fun hunarmed => ?_, fun hien him hearly => ?_⟩
  · have harmed : s.armed = false := 
      Bool.eq_false_iff.2 fun h => hunarmed (Bool.and_eq_true_iff.1 h)
    have hpoll := s.pollClock_of_not_armed harmed
    have hnot : ¬ s.pollClock.interruptDue := by simp [State.interruptDue_iff, harmed]
    rw [step_of_not_due hrun hpc hnot, hpoll]
  · have harmed : s.armed = true := Bool.and_eq_true_iff.2 ⟨hien, him⟩
    have hpoll := s.pollClock_of_armed harmed
    have hnot : ¬ s.pollClock.interruptDue := by
      rintro ⟨-, -, hover⟩
      rw [hpoll] at hover
      exact absurd hover (not_le.2 hearly)
    rw [step_of_not_due hrun hpc hnot, hpoll]

end Sys2Proof.Machine

/-! SUPPORT. The faults of a step: the ones no step raises, what a fault keeps, and the exact cases
of OutOfBoundsAccess. -/

namespace Sys2Proof

/-! ### The lengths the spec lists (R81, R87) -/

theorem opcodeTable_lengths : ∀ row ∈ opcodeTable,
    (row.1 ∈ Machine.twoByteOpcodes ↔ row.2.format.length = 2) ∧
      (row.1 ∈ Machine.threeByteOpcodes ↔ row.2.format.length = 3) := by
  decide

/-- An opcode is in the list of its instruction's length, and in no other. -/
theorem Instr.opcode_lengths (i : Instr) :
    (i.opcode ∈ Machine.twoByteOpcodes ↔ i.format.length = 2) ∧
      (i.opcode ∈ Machine.threeByteOpcodes ↔ i.format.length = 3) := by
  obtain ⟨sh, hs⟩ := opcodeShape_opcode i
  have hformat := opcodeShape_format i
  rw [hs] at hformat
  exact Option.some.inj hformat ▸ opcodeTable_lengths _ (mem_of_opcodeShape _ sh hs)

/-- No instruction has more than three bytes (R80). -/
theorem Format.length_le (f : Format) : f.length ≤ 3 := by
  cases f <;> decide

/-- A row's operand bytes can be cut short only where there are fewer than its format has (R85). -/
theorem decodeOperands_error_length {sh : Shape} {bs : List Byte} {e : DecodeError}
    (h : decodeOperands sh bs = .error e) : bs.length + 1 < sh.format.length := by
  unfold decodeOperands at h
  split at h <;> cases h <;> simp [Shape.format, Format.length]

end Sys2Proof

namespace Sys2Proof.Machine

/-! ### What a fault of any kind is -/

/-- Settles O13: the fetch and the instructions raise three other kinds, phases A and B one. -/
theorem invalidRegisterNever : Obligations.InvalidRegisterNever := by
  intro s t h ht
  obtain ⟨hrun, ⟨-, rfl⟩ | ⟨-, -, -, rfl⟩ | ⟨-, u, hB, ⟨k, hf, rfl⟩ | ⟨i, -, hx⟩⟩⟩ := step_next s t h
  · cases ht
  · cases ht
  · cases ht
    obtain hk | hk := u.fetch_error _ hf <;> cases hk
  · have hurun : u.status = .running := (BeforeExec.of_phaseB hB).status.trans hrun
    obtain hk | ⟨hk, -⟩ := exec_faultKind i u t _ hurun hx ht <;> cases hk

/-- Settles O14: a fault writes the status alone, and an instruction that completes leaves no fault
behind. -/
theorem faultKeepsOutput : Obligations.FaultKeepsOutput := by
  intro s t k h ht
  obtain ⟨hrun, u, hu, ⟨k', rfl⟩ | ⟨i, -, hc⟩⟩ := step_effect s t h
  · exact hu.output
  · rcases hc.status with hkept | ⟨-, hhalt⟩
    · simp [ht, hu.status, hrun] at hkept
    · simp [ht] at hhalt

/-! ### Operand bytes past the top of memory (R85) -/

/-- An opcode of the table whose fetch fails has operand bytes past address 255. -/
theorem State.fetch_error_past {s : State} {k : FaultKind} {sh : Shape} (hpc : s.pc ≤ 255)
    (hs : opcodeShape (s.mem.read s.pc) = some sh) (h : s.fetch = .error k) :
    256 < s.pc + sh.format.length := by
  rw [s.fetch_eq hpc, hs] at h
  cases hd : decodeOperands sh (s.fetchBytes (s.pc + 1) 2) with
  | ok r => simp [hd] at h
  | error e =>
    have hshort := decodeOperands_error_length hd
    have hlen : sh.format.length ≤ 3 := sh.format.length_le
    rw [s.fetchBytes_operands_length hpc] at hshort
    omega

/-- The instruction fetched has the opcode byte at PC (R82). -/
theorem State.fetch_opcode {s : State} {i : Instr} (hpc : s.pc ≤ 255) (h : s.fetch = .ok i) :
    i.opcode = s.mem.read s.pc := by
  obtain ⟨rest, hd⟩ := (s.fetch_ok i).1 h
  rw [s.fetchBytes_head hpc] at hd
  exact decode_opcode hd

/-- The register of a POP fetched is the one its operand byte selects (R83). -/
theorem State.fetch_pop_operand {s : State} {ra : RegIndex} (hpc : s.pc ≤ 255)
    (h : s.fetch = .ok (.pop ra)) : regOperand (s.mem.read (s.pc + 1)) = ra := by
  have hfits : s.pc + 2 ≤ 256 := s.fetch_fits _ hpc h
  have hop : 0x46#8 = s.mem.read s.pc := State.fetch_opcode hpc h
  rw [s.fetch_eq hpc, ← hop, opcodeShape_pop, s.fetchBytes_succ (s.pc + 1) 1 (by omega)] at h
  cases h
  rfl

/-! ### The instructions that raise OutOfBoundsAccess (R224) -/

/-- When an instruction run from `s` raises OutOfBoundsAccess (R162 to R165, R204). -/
def ExecOutOfBounds (s : State) : Instr → Prop
  | .push _ => s.sp = 0#8
  | .pop ra => (s.setReg ra (s.loadByte s.sp)).sp = 255#8
  | .call _ => s.pc + 2 > 255 ∨ s.sp = 0#8
  | .ret => s.sp = 255#8
  | .iret => s.pIret = .intended ∧ 247 < s.sp.toNat
  | .nop | .hlt | .ldi _ _ | .prn _ | .pra _ | .add _ _ | .mul _ _ | .div _ _ | .comp _ _ | .jmp _
  | .jeq _ | .jne _ | .st _ _ | .inc | .inte => False

/-- A meaning that faults where a condition holds, and else keeps the status it began with, ends
with its fault exactly there. -/
theorem status_faulted_iff_of_ite {c : Prop} [Decidable c] {s u t : State} {k : FaultKind}
    (h : (if c then .next (s.raise k) else .next u : Host.Outcome State Fault Refusal) = .next t)
    (hu : u.status = .running) : t.status = .faulted k ↔ c := by
  split at h
  next hc => cases h; exact iff_of_true rfl hc
  next hc => cases h; exact iff_of_false (by simp [hu]) hc

/-- `ExecOutOfBounds` is exact on a running core, where no fault stands before the instruction. -/
theorem exec_outOfBounds_iff (i : Instr) (s t : State) (hs : s.status = .running)
    (h : exec i s = .next t) :
    t.status = .faulted .outOfBoundsAccess ↔ ExecOutOfBounds s i := by
  have hkept : s.status ≠ .faulted .outOfBoundsAccess := by simp [hs]
  cases i with
  | push ra => exact (status_faulted_iff_of_ite ((execPush_eq s ra).symm.trans h) hs :)
  | pop ra => exact (status_faulted_iff_of_ite ((execPop_eq s ra).symm.trans h) hs :)
  | call ra => exact (status_faulted_iff_of_ite ((execCall_eq s ra).symm.trans h) hs :)
  | ret => exact (status_faulted_iff_of_ite ((execRet_eq s).symm.trans h) hs :)
  | iret =>
    cases hp : s.pIret with
    | noop =>
      cases (execIret_noop s hp).symm.trans h
      exact iff_of_false hkept (by simp [ExecOutOfBounds, hp])
    | intended =>
      by_cases hsp : 247 < s.sp.toNat
      · have hx : exec .iret s = s.finish (.error .outOfBoundsAccess) :=
          s.interruptReturn_error hsp ▸ execIret_intended s hp
        cases hx.symm.trans h
        exact iff_of_true rfl ⟨hp, hsp⟩
      · obtain ⟨t', hx, hr⟩ := exec_iret_returns hp (Nat.not_lt.1 hsp)
        cases hx.symm.trans h
        exact iff_of_false (hr.status ▸ hkept) fun ⟨_, hgt⟩ => hsp hgt
  | div ra rb =>
    have h := (execDiv_eq s ra rb).symm.trans h
    split at h
    · cases h; exact iff_of_false (by simp) id
    · cases h; exact iff_of_false hkept id
  | add ra rb => cases (execAdd_eq s ra rb).symm.trans h; exact iff_of_false hkept id
  | mul ra rb => cases (execMul_eq s ra rb).symm.trans h; exact iff_of_false hkept id
  | jeq ra => cases h; exact iff_of_false (by simpa using hkept) id
  | jne ra => cases h; exact iff_of_false (by simpa using hkept) id
  | hlt => cases h; exact iff_of_false (by simp) id
  | nop | ldi | prn | pra | comp | jmp | st | inc | inte => cases h; exact iff_of_false hkept id

/-! ### The cases of phase C (R224) -/

/-- SP after POP has written its register is the popped byte for POP R7, else SP (R163). -/
theorem execOutOfBounds_pop_iff (s : State) (ra : RegIndex) :
    ExecOutOfBounds s (.pop ra) ↔
      (ra ≠ 7#3 ∧ s.sp = 255#8) ∨ (ra = 7#3 ∧ s.loadByte s.sp = 255#8) := by
  rw [ExecOutOfBounds]
  by_cases hra : ra = 7#3
  · subst hra
    simp
  · simp [s.sp_setReg_of_ne _ hra, hra]

/-- Where the fetch gives an instruction, the cases of the spec's table are those in which the
instruction raises OutOfBoundsAccess. -/
theorem phaseCOutOfBounds_iff_of_fetch {s : State} {i : Instr} (hpc : s.pc ≤ 255)
    (hf : s.fetch = .ok i) : PhaseCOutOfBounds s ↔ ExecOutOfBounds s i := by
  have hfits := s.fetch_fits i hpc hf
  obtain ⟨htwo, hthree⟩ := i.opcode_lengths
  have hpop : ∀ ra, i = .pop ra → regOperand (s.mem.read (s.pc + 1)) = ra := by
    rintro ra rfl
    exact State.fetch_pop_operand hpc hf
  have h2 : ¬ (i.opcode ∈ twoByteOpcodes ∧ s.pc = 255) := by rw [htwo]; omega
  have h3 : ¬ (i.opcode ∈ threeByteOpcodes ∧ 254 ≤ s.pc) := by rw [hthree]; omega
  rw [PhaseCOutOfBounds, ← State.fetch_opcode hpc hf, or_iff_right h2, or_iff_right h3]
  cases i with
  | pop ra => simp [execOutOfBounds_pop_iff, hpop ra rfl, Instr.opcode]
  | call ra =>
    have hpast : s.pc = 254 ↔ 255 < s.pc + 2 := by
      have hfits : s.pc + 2 ≤ 256 := hfits
      omega
    simp [ExecOutOfBounds, Instr.opcode, hpast, or_comm]
  | _ => simp [ExecOutOfBounds, Instr.opcode]

/-- Each case of the spec's table is of an opcode that the table of opcodes lists. -/
theorem PhaseCOutOfBounds.mem_definedOpcodes {s : State} (h : PhaseCOutOfBounds s) :
    s.mem.read s.pc ∈ definedOpcodes := by
  have htwo : twoByteOpcodes ⊆ definedOpcodes := by decide
  have hthree : threeByteOpcodes ⊆ definedOpcodes := by decide
  obtain ⟨hop, -⟩ | ⟨hop, -⟩ | ⟨hop | hop, -⟩ | ⟨hop, -⟩ | ⟨hop, -⟩ | ⟨hop, -⟩ | ⟨hop, -⟩ |
    ⟨hop, -⟩ := h
  · exact htwo hop
  · exact hthree hop
  all_goals rw [hop]; decide

/-- Where the fetch fails, the cases of the spec's table are those of operand bytes past address
255. -/
theorem phaseCOutOfBounds_iff_of_fetch_error {s : State} {k : FaultKind} (hpc : s.pc ≤ 255)
    (hf : s.fetch = .error k) : PhaseCOutOfBounds s ↔ k = .outOfBoundsAccess := by
  constructor
  · intro h
    refine (s.fetch_error k hf).resolve_left ?_
    rintro rfl
    exact (s.fetch_illegalOpcode_iff hpc).1 hf h.mem_definedOpcodes
  · rintro rfl
    cases hs : opcodeShape (s.mem.read s.pc) with
    | none =>
      have hillegal := (s.fetch_illegalOpcode_iff hpc).2 ((opcodeShape_eq_none_iff _).1 hs)
      cases hf.symm.trans hillegal
    | some sh =>
      have hpast := State.fetch_error_past hpc hs hf
      obtain ⟨htwo, hthree⟩ := opcodeTable_lengths _ (mem_of_opcodeShape _ sh hs)
      have hlen : sh.format.length ≤ 3 := sh.format.length_le
      by_cases h2 : sh.format.length = 2
      · exact .inl ⟨htwo.2 h2, by omega⟩
      · have h3 : sh.format.length = 3 := by omega
        exact .inr (.inl ⟨hthree.2 h3, by omega⟩)

/-- Phase C raises OutOfBoundsAccess exactly in the cases of the spec's table. -/
theorem phaseC_outOfBounds_iff {s t : State} (hrun : s.status = .running) (hpc : s.pc ≤ 255)
    (h : s.phaseC = .next t) : t.status = .faulted .outOfBoundsAccess ↔ PhaseCOutOfBounds s := by
  cases hf : s.fetch with
  | ok i =>
    rw [phaseCOutOfBounds_iff_of_fetch hpc hf]
    exact exec_outOfBounds_iff i s t hrun ((s.phaseC_of_fetch i hf).symm.trans h)
  | error k =>
    rw [phaseCOutOfBounds_iff_of_fetch_error hpc hf]
    cases (State.phaseC_of_fetch_error hf).symm.trans h
    simp

/-- Settles O11: phase A and phase B have a case each, which excludes the later phases', and phase C
the others. -/
theorem outOfBoundsExactly : Obligations.OutOfBoundsExactly := by
  intro s t h
  obtain ⟨hrun, ⟨hpast, rfl⟩ | ⟨hpc, hdue, hsp, rfl⟩ | ⟨hpc, u, hB, -⟩⟩ := step_next s t h
  · exact iff_of_true rfl (.inl hpast)
  · exact iff_of_true rfl (.inr (.inl ⟨hpc, hdue, hsp⟩))
  · have hC : u.phaseC = .next t := (step_of_phaseB hrun hpc hB).symm.trans h
    have hurun : u.status = .running := (BeforeExec.of_phaseB hB).status.trans hrun
    have hupc : u.pc ≤ 255 := State.phaseB_pc_le (by simpa using hpc) hB
    rw [phaseC_outOfBounds_iff hurun hupc hC]
    constructor
    · exact fun hu => .inr (.inr ⟨hpc, u, hB, hu⟩)
    · rintro (hpast | ⟨-, hdue, hsp⟩ | ⟨-, v, hv, hu⟩)
      · exact absurd hpast (Nat.not_lt.2 hpc)
      · have herror := (State.phaseB_error_iff _ _).2
          ⟨hdue, s.pollClock_sp.symm ▸ hsp, rfl⟩
        cases hB.symm.trans herror
      · cases hB.symm.trans hv
        exact hu

end Sys2Proof.Machine
